-- ==== Sys2Proof/Word.lean ====
section
/-!
DEFINITION. The widths of the machine's values (spec 00_scope.md R6, R7): every value is an unsigned bit vector, bit 0 the
least significant.
-/

namespace Sys2Proof

/-- A byte of memory, a general register, a timer, a byte immediate. -/
abbrev Byte := BitVec 8

/-- A 16-bit value: an instruction word, I, PC, a stack entry, the key flags. -/
abbrev Word := BitVec 16

/-- A 4-bit field of an instruction: a register number `x` or `y`, or the nibble `n` (30_encoding.md R92). -/
abbrev Nibble := BitVec 4

/-- The 12-bit address immediate `nnn` (30_encoding.md R92). -/
abbrev Addr := BitVec 12

end Sys2Proof
end

