-- ==== Sys2Proof/Syntax.lean ====
section
/-!
DEFINITION. The instructions: one constructor per row of spec/opcode_table.json, in its order, with typed operand fields
(30_encoding.md R92, R96, R105). An operand's type is its field's width, so every term is an instruction of the machine.
-/

namespace Sys2Proof

/-- The 33 instructions of 30_encoding.md R96. -/
inductive Instr where
  /-- `00E0` CLEAR, R120. -/
  | clear
  /-- `00EE` RETURN, R121. -/
  | ret
  /-- `1nnn` JUMP, R122. -/
  | jump (nnn : Addr)
  /-- `2nnn` CALL, R123. -/
  | call (nnn : Addr)
  /-- `3xnn` SKIP_EQ_IMM, R124. -/
  | skipEqImm (x : Nibble) (nn : Byte)
  /-- `4xnn` SKIP_NE_IMM, R125. -/
  | skipNeImm (x : Nibble) (nn : Byte)
  /-- `5xy0` SKIP_EQ_REG, R126. -/
  | skipEqReg (x y : Nibble)
  /-- `6xnn` LOAD_IMM, R141. -/
  | loadImm (x : Nibble) (nn : Byte)
  /-- `7xnn` ADD_IMM, R142. -/
  | addImm (x : Nibble) (nn : Byte)
  /-- `8xy0` COPY, R143. -/
  | copy (x y : Nibble)
  /-- `8xy1` OR, R144. -/
  | orReg (x y : Nibble)
  /-- `8xy2` AND, R145. -/
  | andReg (x y : Nibble)
  /-- `8xy3` XOR, R146. -/
  | xorReg (x y : Nibble)
  /-- `8xy4` ADD_REG, R147. -/
  | addReg (x y : Nibble)
  /-- `8xy5` SUB, R148. -/
  | sub (x y : Nibble)
  /-- `8xy6` SHR, R149; `y` is present in the word and ignored. -/
  | shr (x y : Nibble)
  /-- `8xy7` SUBN, R150. -/
  | subn (x y : Nibble)
  /-- `8xyE` SHL, R151; `y` is present in the word and ignored. -/
  | shl (x y : Nibble)
  /-- `9xy0` SKIP_NE_REG, R127. -/
  | skipNeReg (x y : Nibble)
  /-- `Annn` LOAD_I, R160. -/
  | loadI (nnn : Addr)
  /-- `Cxnn` RANDOM, R175. -/
  | random (x : Nibble) (nn : Byte)
  /-- `Dxyn` DRAW, R180. -/
  | draw (x y n : Nibble)
  /-- `Ex9E` SKIP_KEY, R128. -/
  | skipKey (x : Nibble)
  /-- `ExA1` SKIP_NOT_KEY, R129. -/
  | skipNotKey (x : Nibble)
  /-- `Fx07` GET_DELAY, R190. -/
  | getDelay (x : Nibble)
  /-- `Fx0A` WAIT_KEY, R200. -/
  | waitKey (x : Nibble)
  /-- `Fx15` SET_DELAY, R191. -/
  | setDelay (x : Nibble)
  /-- `Fx18` SET_SOUND, R192. -/
  | setSound (x : Nibble)
  /-- `Fx1E` ADD_I, R161. -/
  | addI (x : Nibble)
  /-- `Fx29` FONT, R162. -/
  | font (x : Nibble)
  /-- `Fx33` BCD, R165. -/
  | bcd (x : Nibble)
  /-- `Fx55` STORE, R163. -/
  | store (x : Nibble)
  /-- `Fx65` RESTORE, R164. -/
  | restore (x : Nibble)
  deriving DecidableEq, Repr

end Sys2Proof
end

