-- ==== Sys2Proof/Decode.lean ====
section
/-!
DEFINITION. Decoding (30_encoding.md R92, R95 to R97, R104), total on any bytes and rejecting by name, and the encoder written from
the same table. The numbering of the operations is the spec's decision D1.
-/

namespace Sys2Proof

/-- The primary category: `op[15:12]` (R92). -/
def fieldC (w : Word) : Nibble := w.extractLsb' 12 4

/-- `op[11:8]` (R92). -/
def fieldX (w : Word) : Nibble := w.extractLsb' 8 4

/-- `op[7:4]` (R92). -/
def fieldY (w : Word) : Nibble := w.extractLsb' 4 4

/-- `op[3:0]` (R92). -/
def fieldN (w : Word) : Nibble := w.extractLsb' 0 4

/-- `op[7:0]` (R92). -/
def fieldNN (w : Word) : Byte := w.extractLsb' 0 8

/-- `op[11:0]` (R92). -/
def fieldNNN (w : Word) : Addr := w.extractLsb' 0 12

/-- Why some bytes are no instruction: the classes (a) to (f) of R97, each with the word, and a byte sequence that ends before
the two bytes of a word. A word of any class raises `UnknownOpcode` when it is fetched. -/
inductive DecodeError where
  /-- (a) `0nnn` with `nnn` other than 0x0E0 and 0x0EE. -/
  | unknownSystem (w : Word)
  /-- (b) `5xyn` or `9xyn` with `n` other than 0. -/
  | unknownSkipReg (w : Word)
  /-- (c) `8xyn` with `n` one of 8 to D and F. -/
  | unknownAlu (w : Word)
  /-- (d) `Bnnn`. -/
  | unknownB (w : Word)
  /-- (e) `Exnn` with `nn` other than 0x9E and 0xA1. -/
  | unknownKey (w : Word)
  /-- (f) `Fxnn` with `nn` none of the nine codes. -/
  | unknownMisc (w : Word)
  /-- Fewer than two bytes; never met by the machine, whose fetch always reads two (R64). -/
  | truncated
  deriving DecidableEq, Repr

/-- Category 0x0 discriminates on all 12 low bits (R95, R104). -/
def decode0 (w : Word) : Except DecodeError Instr :=
  match (fieldNNN w).toNat with
  | 0x0E0 => .ok .clear
  | 0x0EE => .ok .ret
  | _ => .error (.unknownSystem w)

/-- Categories 0x5 and 0x9 require `n` = 0 (R95, D4). -/
def decodeSkipReg (w : Word) (i : Instr) : Except DecodeError Instr :=
  match (fieldN w).toNat with
  | 0x0 => .ok i
  | _ => .error (.unknownSkipReg w)

/-- Category 0x8 discriminates on `n` (R95). -/
def decode8 (w : Word) : Except DecodeError Instr :=
  match (fieldN w).toNat with
  | 0x0 => .ok (.copy (fieldX w) (fieldY w))
  | 0x1 => .ok (.orReg (fieldX w) (fieldY w))
  | 0x2 => .ok (.andReg (fieldX w) (fieldY w))
  | 0x3 => .ok (.xorReg (fieldX w) (fieldY w))
  | 0x4 => .ok (.addReg (fieldX w) (fieldY w))
  | 0x5 => .ok (.sub (fieldX w) (fieldY w))
  | 0x6 => .ok (.shr (fieldX w) (fieldY w))
  | 0x7 => .ok (.subn (fieldX w) (fieldY w))
  | 0xE => .ok (.shl (fieldX w) (fieldY w))
  | _ => .error (.unknownAlu w)

/-- Category 0xE discriminates on `nn` (R95). -/
def decodeE (w : Word) : Except DecodeError Instr :=
  match (fieldNN w).toNat with
  | 0x9E => .ok (.skipKey (fieldX w))
  | 0xA1 => .ok (.skipNotKey (fieldX w))
  | _ => .error (.unknownKey w)

/-- Category 0xF discriminates on `nn` (R95). -/
def decodeF (w : Word) : Except DecodeError Instr :=
  match (fieldNN w).toNat with
  | 0x07 => .ok (.getDelay (fieldX w))
  | 0x0A => .ok (.waitKey (fieldX w))
  | 0x15 => .ok (.setDelay (fieldX w))
  | 0x18 => .ok (.setSound (fieldX w))
  | 0x1E => .ok (.addI (fieldX w))
  | 0x29 => .ok (.font (fieldX w))
  | 0x33 => .ok (.bcd (fieldX w))
  | 0x55 => .ok (.store (fieldX w))
  | 0x65 => .ok (.restore (fieldX w))
  | _ => .error (.unknownMisc w)

/-- Decode by nibbles: the leading nibble selects the category (R95). It depends on the word alone. -/
def decode (w : Word) : Except DecodeError Instr :=
  match (fieldC w).toNat with
  | 0x0 => decode0 w
  | 0x1 => .ok (.jump (fieldNNN w))
  | 0x2 => .ok (.call (fieldNNN w))
  | 0x3 => .ok (.skipEqImm (fieldX w) (fieldNN w))
  | 0x4 => .ok (.skipNeImm (fieldX w) (fieldNN w))
  | 0x5 => decodeSkipReg w (.skipEqReg (fieldX w) (fieldY w))
  | 0x6 => .ok (.loadImm (fieldX w) (fieldNN w))
  | 0x7 => .ok (.addImm (fieldX w) (fieldNN w))
  | 0x8 => decode8 w
  | 0x9 => decodeSkipReg w (.skipNeReg (fieldX w) (fieldY w))
  | 0xA => .ok (.loadI (fieldNNN w))
  | 0xB => .error (.unknownB w)
  | 0xC => .ok (.random (fieldX w) (fieldNN w))
  | 0xD => .ok (.draw (fieldX w) (fieldY w) (fieldN w))
  | 0xE => decodeE w
  | _ => decodeF w

/-- Big-endian: the byte at the lower address is `op[15:8]` (20_memory.md R65). -/
def wordOfBytes (hi lo : Byte) : Word := hi ++ lo

/-- One instruction off the front of any byte sequence, with the rest of it (R90: every instruction is two bytes). -/
def decodeBytes : List Byte → Except DecodeError (Instr × List Byte)
  | hi :: lo :: rest =>
    match decode (wordOfBytes hi lo) with
    | .ok i => .ok (i, rest)
    | .error e => .error e
  | _ => .error .truncated

/-- Format NNN: the category and the 12-bit address (R93). -/
def wordNNN (c : Nibble) (nnn : Addr) : Word := c ++ nnn

/-- Formats XNN and X: the category, `x` and the low byte, an operand or a fixed code (R93). -/
def wordXNN (c x : Nibble) (nn : Byte) : Word := c ++ x ++ nn

/-- Formats XY and XYN: the category, `x`, `y` and the low nibble, a fixed code or an operand (R93). -/
def wordXYN (c x y n : Nibble) : Word := c ++ x ++ y ++ n

/-- The instruction's word (R93, R96). -/
def encode : Instr → Word
  | .clear => 0x00E0
  | .ret => 0x00EE
  | .jump nnn => wordNNN 0x1 nnn
  | .call nnn => wordNNN 0x2 nnn
  | .skipEqImm x nn => wordXNN 0x3 x nn
  | .skipNeImm x nn => wordXNN 0x4 x nn
  | .skipEqReg x y => wordXYN 0x5 x y 0x0
  | .loadImm x nn => wordXNN 0x6 x nn
  | .addImm x nn => wordXNN 0x7 x nn
  | .copy x y => wordXYN 0x8 x y 0x0
  | .orReg x y => wordXYN 0x8 x y 0x1
  | .andReg x y => wordXYN 0x8 x y 0x2
  | .xorReg x y => wordXYN 0x8 x y 0x3
  | .addReg x y => wordXYN 0x8 x y 0x4
  | .sub x y => wordXYN 0x8 x y 0x5
  | .shr x y => wordXYN 0x8 x y 0x6
  | .subn x y => wordXYN 0x8 x y 0x7
  | .shl x y => wordXYN 0x8 x y 0xE
  | .skipNeReg x y => wordXYN 0x9 x y 0x0
  | .loadI nnn => wordNNN 0xA nnn
  | .random x nn => wordXNN 0xC x nn
  | .draw x y n => wordXYN 0xD x y n
  | .skipKey x => wordXNN 0xE x 0x9E
  | .skipNotKey x => wordXNN 0xE x 0xA1
  | .getDelay x => wordXNN 0xF x 0x07
  | .waitKey x => wordXNN 0xF x 0x0A
  | .setDelay x => wordXNN 0xF x 0x15
  | .setSound x => wordXNN 0xF x 0x18
  | .addI x => wordXNN 0xF x 0x1E
  | .font x => wordXNN 0xF x 0x29
  | .bcd x => wordXNN 0xF x 0x33
  | .store x => wordXNN 0xF x 0x55
  | .restore x => wordXNN 0xF x 0x65

/-- A word of the opcode table as the two bytes that stand in memory, the most significant first (R90). -/
def bytesOfTableWord (nbits w : Nat) : List Byte :=
  let word : Word := BitVec.ofNat 16 (w % 2 ^ nbits)
  [word.extractLsb' 8 8, word.extractLsb' 0 8]

/-- What the decoder reads from an instruction whose bits are `w`, numbered as spec/opcode_table.json numbers them. -/
def decodeTableWord (nbits w : Nat) : Option Instr :=
  match decodeBytes (bytesOfTableWord nbits w) with
  | .ok (i, _) => some i
  | .error _ => none

end Sys2Proof
end

