-- ==== Sys2Proof/Config.lean ====
section
/-!
DEFINITION. What is fixed for this hardware (00_scope.md R5) and the free values: what the outside world supplies to each Step
and what an implementation chooses. The free values have no body, so no proof can see what they are.
-/

namespace Sys2Proof.Config

/-- `MEM_SIZE` (R5). -/
def memSize : Nat := 4096

/-- `FONT_BASE` (R5, D8). -/
def fontBase : Nat := 0x000

/-- `PROG_BASE` and `PC_RESET` (R5; D12). -/
def progBase : Nat := 0x200

/-- `ROM_MAX` (R5, R250). -/
def romMax : Nat := 3584

/-- `STACK_DEPTH` (R5; 90_conflicts.md C1). -/
def stackDepth : Nat := 16

/-- `DISPLAY_W` (R5). -/
def displayW : Nat := 64

/-- `DISPLAY_H` (R5). -/
def displayH : Nat := 32

/-- The key flags at the `k`-th Step: any value, and any relation between Steps (R34, U19). Log entry 3. -/
opaque freeKeys : Nat → Word

/-- The random byte of the `k`-th Step: any value (R176, U3). Log entry 3. -/
opaque freeRnd : Nat → Byte

/-- How many Ticks fall just before the `k`-th Step: zero, one or many (R225, U5). Log entry 4. -/
opaque freeTicks : Nat → Nat

/-- Which of several pressed keys an implementation's `KEY_SELECT` prefers, as a number that is reduced modulo how many are
pressed (R201, U4). Log entry 9. -/
opaque keyChoice : Word → Nat

end Sys2Proof.Config
end

