-- ==== Sys2Proof/Machine/State.lean ====
section
/-!
DEFINITION. The machine's state as plain data (10_state.md R20 to R39), the reasons a step can stop, and the state right after
reset (R37).
-/

namespace Sys2Proof.Machine

/-- MODE, the run state of the sequencer (R35). It is no privilege level (60_exceptions.md R223). -/
inductive Mode where
  /-- Power-on, before any successful Load. -/
  | unloaded
  /-- A program is loaded: Steps and Ticks occur while `paused` is 0. -/
  | active
  /-- A fatal machine error occurred. -/
  | halted
  deriving DecidableEq, Repr

/-- The errors of 60_exceptions.md R210, and none. -/
inductive ErrKind where
  | none
  | unknownOpcode
  | stackOverflow
  | stackUnderflow
  /-- Reported at the Load interface only, never recorded in ERR (R214). -/
  | romTooLarge
  deriving DecidableEq, Repr

/-- ERR, the error record: what was raised, the address the faulting word was fetched from, and the word (R35). -/
structure ErrorRecord where
  kind : ErrKind
  addr : Word
  opcode : Word
  deriving DecidableEq, Repr

/-- No error since Load: (0, 0x0000, 0x0000) (R210). -/
def noError : ErrorRecord := ⟨.none, 0, 0⟩

/-- `UNKNOWN_OPCODE_POLICY` (00_scope.md R5, 60_exceptions.md R211). -/
inductive UnknownPolicy where
  /-- An unknown word is a fatal error: the default. -/
  | halt
  /-- An unknown word is a reported no-op (R222). -/
  | skip
  deriving DecidableEq, Repr

/-- The 4096-byte memory (20_memory.md R60) as the bytes that differ from the reset contents: address and byte, the addresses
strictly rising. Reads, writes and the canonical form are in Machine/Memory.lean. -/
abbrev Memory := List Host.Cell

/-- The framebuffer: pixel (x, y) is bit `y*64 + x`, 1 = on (R32, R33). -/
abbrev Framebuffer := BitVec 2048

/-- Why no step can be taken. Both mirror the spec's `stuck`: only Load leaves these modes. -/
inductive Fault where
  /-- Raised by a Step (`step`, `event`) in MODE = Halted, where no Step occurs (R220). Safe: the spec's own stuck state. -/
  | halted
  /-- Raised by a Step (`step`, `event`) in MODE = Unloaded, where no Step occurs (R255). Safe: the spec's own stuck state. -/
  | unloaded
  deriving DecidableEq, Repr

/-- Why an event has no effect at all. -/
inductive Refusal where
  /-- An instruction without a meaning; no arm of `exec` answers it. Safe. -/
  | notModelled (mnemonic : String)
  /-- Raised by the event Load for a ROM of more than 3584 bytes, which changes no state (R214, R254). Safe: the spec's own
  refusal. -/
  | romTooLarge (length : Nat)
  deriving DecidableEq, Repr

/-- The state. The first group is the spec's complete list of architectural state (R39). -/
structure State where
  /-- V0 to VF (R20). -/
  v : Vector Byte 16
  /-- The index register I (R23). -/
  i : Word
  /-- PC: between Steps the address of the next instruction (R24). -/
  pc : Word
  /-- The call stack's entries, `stack[0]` the oldest (R26). -/
  stack : Vector Word 16
  /-- SP, how many entries are valid: 0 to 16 (R27). -/
  sp : Fin 17
  /-- The delay timer (R30). -/
  dt : Byte
  /-- The sound timer (R31). -/
  st : Byte
  /-- The display buffer (R32). -/
  fb : Framebuffer
  /-- MODE (R35). -/
  mode : Mode
  /-- ERR (R35). -/
  err : ErrorRecord
  /-- Memory (R36). -/
  mem : Memory
  /-- Output `fb_updated` of the last Step (00_scope.md R12, 44_display.md R183). -/
  fbUpdated : Bool
  /-- What the last Step reported on `status` without halting: an unknown word under `skip` (60_exceptions.md R222). -/
  report : Option ErrorRecord
  /-- Input `keys` of the Step, sampled at its start (R34). -/
  keys : Word
  /-- Input `rnd` of the Step (43_random.md R176). -/
  rnd : Byte
  /-- Input `paused`, a level (60_exceptions.md R229). -/
  paused : Bool
  /-- The parameter `UNKNOWN_OPCODE_POLICY` (R211); nothing writes it. -/
  policy : UnknownPolicy
  /-- The MODEL's own field: how often free values have been drawn. -/
  draws : Nat
  deriving DecidableEq, Repr

/-- The machine right after reset: the state after `Load` of an empty ROM (R37, R255). The input, output and model fields hold the
values of log entries 3, 5, 6 and 8 (DESIGN CHOICE). -/
def State.reset : State where
  v := Vector.replicate 16 0
  i := 0
  pc := 0x0200
  stack := Vector.replicate 16 0
  sp := 0
  dt := 0
  st := 0
  fb := 0
  mode := .active
  err := noError
  mem := []
  fbUpdated := false
  report := none
  keys := 0
  rnd := 0
  paused := false
  policy := .halt
  draws := 0

end Sys2Proof.Machine
end

