-- ==== Sys2Proof/Machine/Memory.lean ====
section
/-!
DEFINITION. The store itself (20_memory.md R60 to R70): its reset contents, one-byte read and write, and the canonical form.
-/

namespace Sys2Proof.Machine

/-- `FONT_TABLE`: the 80 bytes of 20_memory.md R68 (the spec's configuration default; PRESUMED by the spec, D8). Log entry 2. -/
def fontTable : List Byte :=
  [0xF0, 0x90, 0x90, 0x90, 0xF0] ++ [0x20, 0x60, 0x20, 0x20, 0x70] ++
  [0xF0, 0x10, 0xF0, 0x80, 0xF0] ++ [0xF0, 0x10, 0xF0, 0x10, 0xF0] ++
  [0x90, 0x90, 0xF0, 0x10, 0x10] ++ [0xF0, 0x80, 0xF0, 0x10, 0xF0] ++
  [0xF0, 0x80, 0xF0, 0x90, 0xF0] ++ [0xF0, 0x10, 0x20, 0x40, 0x40] ++
  [0xF0, 0x90, 0xF0, 0x90, 0xF0] ++ [0xF0, 0x90, 0xF0, 0x10, 0xF0] ++
  [0xF0, 0x90, 0xF0, 0x90, 0x90] ++ [0xE0, 0x90, 0xE0, 0x90, 0xE0] ++
  [0xF0, 0x80, 0x80, 0x80, 0xF0] ++ [0xE0, 0x90, 0x90, 0x90, 0xE0] ++
  [0xF0, 0x80, 0xF0, 0x80, 0xF0] ++ [0xF0, 0x80, 0xF0, 0x80, 0x80]

/-- What an address that is not listed reads as: the reset contents, the font from `FONT_BASE` and 0x00 elsewhere (R75). -/
def unlisted (a : Nat) : Byte := if Config.fontBase ≤ a then fontTable.getD (a - Config.fontBase) 0 else 0

/-- The byte at `a` of the flat store. -/
def Memory.read (m : Memory) (a : Nat) : Byte :=
  match m.find? (fun c => c.1 == a) with
  | some c => c.2
  | none => unlisted a

/-- Put a cell before the first one whose address is not lower. -/
def insertCell (a : Nat) (b : Byte) : List Host.Cell → List Host.Cell
  | [] => [(a, b)]
  | c :: rest => if c.1 < a then c :: insertCell a b rest else (a, b) :: c :: rest

/-- Set the byte at `a`; writing what the address reads as when unlisted removes its entry. -/
def Memory.write (m : Memory) (a : Nat) (b : Byte) : Memory :=
  let others := m.filter (fun c => c.1 != a)
  if b = unlisted a then others else insertCell a b others

/-- The addresses rise strictly from `low` on, stay below `MEM_SIZE`, and no entry equals what its address reads as unlisted. -/
def canonicalFrom : Nat → List Host.Cell → Bool
  | _, [] => true
  | low, c :: rest => decide (low ≤ c.1) && decide (c.1 < Config.memSize) && (c.2 != unlisted c.1) && canonicalFrom (c.1 + 1) rest

/-- The canonical form, in which equal memories are equal lists. -/
def Memory.wf (m : Memory) : Bool := canonicalFrom 0 m

end Sys2Proof.Machine
end

