-- ==== Sys2Proof/Machine/Operands.lean ====
section
/-!
DEFINITION. The operand forms (30_encoding.md R94, 42_memory_index.md R166) and the accessors of registers, memory and keys
(00_scope.md R8).
-/

namespace Sys2Proof.Machine

/-- The register number of VF (10_state.md R20). -/
def vf : Nibble := 0xF

/-- Read `V[x]` (R8, R20). -/
def State.getV (s : State) (x : Nibble) : Byte := s.v[x.toNat]'x.isLt

/-- `V[x] <- b` (R8, R20). -/
def State.setV (s : State) (x : Nibble) (b : Byte) : State := { s with v := s.v.set x.toNat b x.isLt }

/-- `I <- w` (R8, R23). -/
def State.setI (s : State) (w : Word) : State := { s with i := w }

/-- `PC <- w` (R8, R24). -/
def State.setPc (s : State) (w : Word) : State := { s with pc := w }

/-- `zext_16(nnn)`: an address immediate as a 16-bit value (R94). -/
def addrWord (nnn : Addr) : Word := nnn.setWidth 16

/-- `zext_16` of a byte (R7). -/
def byteWord (b : Byte) : Word := b.setWidth 16

/-- The index of an address in `mem`: the address modulo 4096 (20_memory.md R61). -/
def memIndex (a : Word) : Nat := a.toNat % Config.memSize

/-- `MemRead(addr, 1)` (20_memory.md R62). -/
def State.memRead (s : State) (a : Word) : Byte := s.mem.read (memIndex a)

/-- `MemRead(addr, 2)`: big-endian, each byte address reduced separately (20_memory.md R64). -/
def State.memRead16 (s : State) (a : Word) : Word := s.memRead a ++ s.memRead (a + 1)

/-- `MemWrite(addr, 1, b)` (20_memory.md R63). -/
def State.memWrite (s : State) (a : Word) (b : Byte) : State := { s with mem := s.mem.write (memIndex a) b }

/-- The one addressing mode: the base register I plus an offset of the instruction's own (42_memory_index.md R166). -/
def State.indexed (s : State) (offset : Nat) : Word := s.i + BitVec.ofNat 16 offset

/-- The low 4 bits of a register value, as a key number (D9) or a font digit (D8). -/
def lowDigit (b : Byte) : Nat := b.toNat % 16

/-- `keys[k]`: key `k` is pressed (10_state.md R34). -/
def keyDown (keys : Word) (k : Nat) : Bool := keys.getLsbD k

/-- The numbers of the pressed keys, rising. -/
def pressedKeys (keys : Word) : List Nat := (List.range 16).filter (keyDown keys)

/-- `KEY_SELECT(keys)`: one of the pressed keys, which one of several left free (46_key_wait.md R201). Log entry 9. -/
def keySelect (keys : Word) : Nat :=
  match pressedKeys keys with
  | [] => 0
  | [k] => k
  | k :: more => (k :: more).getD (Config.keyChoice keys % (more.length + 1)) k

end Sys2Proof.Machine
end

