-- ==== Sys2Proof/Machine/Flags.lean ====
section
/-!
DEFINITION. Every flag computation (41_arithmetic.md R140, 44_display.md R180) and the order in which a flag-writing instruction
writes its result and VF (10_state.md R22).
-/

namespace Sys2Proof.Machine

/-- A flag as it is written to VF: 0x00 or 0x01 (R21). -/
def flagByte (b : Bool) : Byte := if b then 1 else 0

/-- The carry of an addition: 1 exactly when the sum exceeds 255 (R140). -/
def carryFlag (a b : Byte) : Byte := flagByte (decide (255 < a.toNat + b.toNat))

/-- The flag of `p - q`: 1 when no borrow occurred, `p >= q`, equality included (R140). -/
def noBorrowFlag (p q : Byte) : Byte := flagByte (decide (q.toNat ≤ p.toNat))

/-- The bit a right shift moves out: bit 0 (R149). -/
def lowBitFlag (a : Byte) : Byte := flagByte (a.getLsbD 0)

/-- The bit a left shift moves out: bit 7 (R151). -/
def highBitFlag (a : Byte) : Byte := flagByte (a.getLsbD 7)

/-- The primary result, then VF last, so that with `x` = 0xF the flag is what stays (R22). -/
def State.setResultAndFlag (s : State) (x : Nibble) (result flag : Byte) : State := (s.setV x result).setV vf flag

end Sys2Proof.Machine
end

