-- ==== Sys2Proof/WellFormed.lean ====
section
/-!
DEFINITION. What is well formed: a word that is one of the 33 instructions (30_encoding.md R96, R97), and a ROM that Load accepts
(70_reset_and_hazards.md R250). Instruction terms need no check of their own: their operands are typed by the fields' widths.
-/

namespace Sys2Proof

/-- A row of the opcode map: a word `w` is the instruction exactly when `w and mask = value` (R96). -/
structure OpcodeRow where
  value : Word
  mask : Word
  deriving DecidableEq, Repr

/-- The match and mask columns of 30_encoding.md R96 (PRESUMED by the spec: D1 takes the numbering from general knowledge). -/
def Instr.row : Instr → OpcodeRow
  | .clear => ⟨0x00E0, 0xFFFF⟩
  | .ret => ⟨0x00EE, 0xFFFF⟩
  | .jump _ => ⟨0x1000, 0xF000⟩
  | .call _ => ⟨0x2000, 0xF000⟩
  | .skipEqImm _ _ => ⟨0x3000, 0xF000⟩
  | .skipNeImm _ _ => ⟨0x4000, 0xF000⟩
  | .skipEqReg _ _ => ⟨0x5000, 0xF00F⟩
  | .loadImm _ _ => ⟨0x6000, 0xF000⟩
  | .addImm _ _ => ⟨0x7000, 0xF000⟩
  | .copy _ _ => ⟨0x8000, 0xF00F⟩
  | .orReg _ _ => ⟨0x8001, 0xF00F⟩
  | .andReg _ _ => ⟨0x8002, 0xF00F⟩
  | .xorReg _ _ => ⟨0x8003, 0xF00F⟩
  | .addReg _ _ => ⟨0x8004, 0xF00F⟩
  | .sub _ _ => ⟨0x8005, 0xF00F⟩
  | .shr _ _ => ⟨0x8006, 0xF00F⟩
  | .subn _ _ => ⟨0x8007, 0xF00F⟩
  | .shl _ _ => ⟨0x800E, 0xF00F⟩
  | .skipNeReg _ _ => ⟨0x9000, 0xF00F⟩
  | .loadI _ => ⟨0xA000, 0xF000⟩
  | .random _ _ => ⟨0xC000, 0xF000⟩
  | .draw _ _ _ => ⟨0xD000, 0xF000⟩
  | .skipKey _ => ⟨0xE09E, 0xF0FF⟩
  | .skipNotKey _ => ⟨0xE0A1, 0xF0FF⟩
  | .getDelay _ => ⟨0xF007, 0xF0FF⟩
  | .waitKey _ => ⟨0xF00A, 0xF0FF⟩
  | .setDelay _ => ⟨0xF015, 0xF0FF⟩
  | .setSound _ => ⟨0xF018, 0xF0FF⟩
  | .addI _ => ⟨0xF01E, 0xF0FF⟩
  | .font _ => ⟨0xF029, 0xF0FF⟩
  | .bcd _ => ⟨0xF033, 0xF0FF⟩
  | .store _ => ⟨0xF055, 0xF0FF⟩
  | .restore _ => ⟨0xF065, 0xF0FF⟩

/-- The opcode map of R96, one row per instruction, in its order. -/
def opcodeMap : List OpcodeRow :=
  [Instr.clear, .ret, .jump 0, .call 0, .skipEqImm 0 0, .skipNeImm 0 0, .skipEqReg 0 0, .loadImm 0 0, .addImm 0 0, .copy 0 0,
    .orReg 0 0, .andReg 0 0, .xorReg 0 0, .addReg 0 0, .sub 0 0, .shr 0 0, .subn 0 0, .shl 0 0, .skipNeReg 0 0, .loadI 0,
    .random 0 0, .draw 0 0 0, .skipKey 0, .skipNotKey 0, .getDelay 0, .waitKey 0, .setDelay 0, .setSound 0, .addI 0, .font 0,
    .bcd 0, .store 0, .restore 0].map Instr.row

/-- The word belongs to the row. -/
def OpcodeRow.accepts (r : OpcodeRow) (w : Word) : Bool := w &&& r.mask == r.value

/-- The word is one of the 33 instructions; every other word is an unknown opcode (R97). -/
def wellFormedWord (w : Word) : Bool := opcodeMap.any (·.accepts w)

/-- Load accepts the ROM image (R250: at most 3584 bytes). -/
def wellFormedRom (rom : List Byte) : Bool := decide (rom.length ≤ Config.romMax)

end Sys2Proof
end

