-- ==== Sys2Proof/Machine/Ops.lean ====
section
/-!
DEFINITION. The shared operations: the start of a Step, taking an error, the call stack, the skips, the block transfers, the blit,
the timers, and Load.
-/

namespace Sys2Proof.Machine

/-- The word at PC (30_encoding.md R91). -/
def State.fetchWord (s : State) : Word := s.memRead16 s.pc

/-- The start of a Step: the inputs are sampled, PC is advanced by 2 modulo 2^16, and the outputs of the Step before are cleared
(30_encoding.md R91, R102; 10_state.md R34). -/
def State.beginStep (s : State) (keys : Word) (rnd : Byte) : State :=
  { s with pc := s.pc + 2, keys := keys, rnd := rnd, fbUpdated := false, report := none }

/-- The address `a` of the running instruction, which sees PC = a + 2 (10_state.md R25; DEDUCED, log entry 1). -/
def State.fetchAddr (s : State) : Word := s.pc - 2

/-! ## Taking an error -/

/-- The numeric codes of 60_exceptions.md R210. -/
def ErrKind.code : ErrKind → Nat
  | .none => 0
  | .unknownOpcode => 1
  | .stackOverflow => 2
  | .stackUnderflow => 3
  | .romTooLarge => 4

/-- `raise E(a, op)` of a fatal error: ERR is written and MODE becomes Halted; PC keeps the fetch advance and nothing else changes
(60_exceptions.md R219). There is no return from it but Load (R221). -/
def State.raise (s : State) (kind : ErrKind) (op : Word) : State :=
  { s with err := ⟨kind, s.fetchAddr, op⟩, mode := .halted }

/-- A Step that fetched an unknown word: fatal under `halt` (R211), a reported no-op under `skip` (R222). -/
def State.unknownOpcode (s : State) (op : Word) : State :=
  match s.policy with
  | .halt => s.raise .unknownOpcode op
  | .skip => { s with report := some ⟨.unknownOpcode, s.fetchAddr, op⟩ }

/-! ## The call stack -/

/-- `Push(w)`; none when 16 entries are in use (10_state.md R28). -/
def State.push (s : State) (w : Word) : Option State :=
  if h : s.sp.val < 16 then
    some { s with stack := s.stack.set s.sp.val w h, sp := ⟨s.sp.val + 1, Nat.succ_lt_succ h⟩ }
  else none

/-- `Pop()`; none when the stack is empty. The popped entry keeps its value (10_state.md R29). -/
def State.pop (s : State) : Option (Word × State) :=
  if h : 0 < s.sp.val then
    some (s.stack[s.sp.val - 1]'(by have := s.sp.isLt; omega),
      { s with sp := ⟨s.sp.val - 1, by have := s.sp.isLt; omega⟩ })
  else none

/-! ## Skips -/

/-- A skip adds 2 to the already advanced PC when its condition holds (40_control_flow.md R130). -/
def State.skipIf (s : State) (cond : Bool) : State := s.setPc (if cond then s.pc + 2 else s.pc)

/-! ## Block transfers -/

/-- `MemWrite(I + k, 1, V[k])` for `k` = 0 .. count - 1, ascending (42_memory_index.md R163). -/
def State.storeRegs (s : State) : Nat → State
  | 0 => s
  | k + 1 =>
    let s' := s.storeRegs k
    s'.memWrite (s'.indexed k) (s'.getV (BitVec.ofNat 4 k))

/-- `V[k] <- MemRead(I + k, 1)` for `k` = 0 .. count - 1, ascending (42_memory_index.md R164). -/
def State.restoreRegs (s : State) : Nat → State
  | 0 => s
  | k + 1 =>
    let s' := s.restoreRegs k
    s'.setV (BitVec.ofNat 4 k) (s'.memRead (s'.indexed k))

/-! ## The blit -/

/-- `MemRead(I + row, 1)` for `row` = 0 .. n - 1 (44_display.md R180). -/
def State.spriteBytes (s : State) (n : Nat) : List Byte := (List.range n).map (fun row => s.memRead (s.indexed row))

/-- The index of a pixel in the framebuffer (10_state.md R33). -/
def pixelIndex (px py : Nat) : Nat := py * Config.displayW + px

/-- The pixels that one sprite byte targets in screen row `py`, left to right: bit 7 is the leftmost, and columns wrap (R180). -/
def rowPixels (x0 py : Nat) (b : Byte) : List Nat :=
  ((List.range 8).filter (fun col => b.getLsbD (7 - col))).map (fun col => pixelIndex ((x0 + col) % Config.displayW) py)

/-- The pixels that a sprite targets, its bytes being rows `row`, `row + 1`, ...; rows wrap (R180). -/
def spritePixels (x0 y0 : Nat) : Nat → List Byte → List Nat
  | _, [] => []
  | row, b :: more => rowPixels x0 ((y0 + row) % Config.displayH) b ++ spritePixels x0 y0 (row + 1) more

/-- The body of R180's loop: a pixel that was on is a collision, and the pixel is inverted. -/
def togglePixel (acc : Framebuffer × Bool) (p : Nat) : Framebuffer × Bool :=
  (acc.1 ^^^ BitVec.twoPow 2048 p, acc.2 || acc.1.getLsbD p)

/-- The XOR blit: the new framebuffer and the collision (R180). -/
def blit (fb : Framebuffer) (pixels : List Nat) : Framebuffer × Bool := pixels.foldl togglePixel (fb, false)

/-- The pixels DRAW targets: from column `V[x]` mod 64 and row `V[y]` mod 32 (R180). -/
def State.drawPixels (s : State) (x y n : Nibble) : List Nat :=
  spritePixels ((s.getV x).toNat % Config.displayW) ((s.getV y).toNat % Config.displayH) 0 (s.spriteBytes n.toNat)

/-- The framebuffer is written by an instruction: `fb_updated` is 1 for the Step (44_display.md R183). -/
def State.setFb (s : State) (fb : Framebuffer) : State := { s with fb := fb, fbUpdated := true }

/-! ## The timers -/

/-- `DT <- b` (10_state.md R30). -/
def State.setDt (s : State) (b : Byte) : State := { s with dt := b }

/-- `ST <- b` (10_state.md R31). -/
def State.setSt (s : State) (b : Byte) : State := { s with st := b }

/-- Step and Tick occur exactly when MODE = Active and `paused` = 0 (30_encoding.md R102, 60_exceptions.md R224). -/
def State.enabled (s : State) : Bool := s.mode == .active && !s.paused

/-- One decrement, clamped at 0 (R224). -/
def decrement (t : Byte) : Byte := if 0 < t.toNat then t - 1 else t

/-- The event Tick; where it is not enabled it does not occur (60_exceptions.md R224, R220, R229). -/
def State.tick (s : State) : State :=
  if s.enabled then { s with dt := decrement s.dt, st := decrement s.st } else s

/-- A timer after `n` decrements. -/
def decayed (n : Nat) (t : Byte) : Byte := BitVec.ofNat 8 (t.toNat - n)

/-- `n` Ticks in a row on an enabled machine (60_exceptions.md R225); Laws/Ops.lean shows that it is `tick` repeated. -/
def State.decay (s : State) (n : Nat) : State := { s with dt := decayed n s.dt, st := decayed n s.st }

/-- The Ticks that fall before the next Step, as many as the free value says, and the next draw (R225). Log entry 4. -/
def State.freeTicks (s : State) : State := { s.decay (Config.freeTicks s.draws) with draws := s.draws + 1 }

/-! ## Load, and what the host reads -/

/-- The memory after Load: the reset contents with `rom` from 0x200 on (70_reset_and_hazards.md R251 to R253). -/
def romMemory : Nat → List Byte → Memory
  | _, [] => []
  | a, b :: more => Memory.write (romMemory (a + 1) more) a b

/-- `Load(rom)`: refused as a whole when the ROM is too large, else every piece of state is initialised, whatever the MODE
(70_reset_and_hazards.md R250, R254). The inputs and the parameter are no state and stay (10_state.md R37). -/
def State.load (s : State) (rom : List Byte) : Except ErrKind State :=
  if wellFormedRom rom then
    .ok { State.reset with
      mem := romMemory Config.progBase rom
      keys := s.keys, rnd := s.rnd, paused := s.paused, policy := s.policy, draws := s.draws }
  else .error .romTooLarge

/-- The output `sound` (60_exceptions.md R226). -/
def State.sound (s : State) : Bool := decide (0 < s.st.toNat)

/-- The output `status`: MODE, ERR and what the last Step reported without halting (00_scope.md R12, 60_exceptions.md R222). -/
def State.status (s : State) : Mode × ErrorRecord × Option ErrorRecord := (s.mode, s.err, s.report)

/-- Pixel (px, py) is on (10_state.md R33). -/
def State.pixel (s : State) (px py : Nat) : Bool := s.fb.getLsbD (pixelIndex px py)

/-- The derived predicate "awaiting key" for the input `keys` (10_state.md R38, 46_key_wait.md R202). -/
def State.awaitingKey (s : State) (keys : Word) : Bool :=
  s.mode == .active && (Instr.row (.waitKey 0)).accepts s.fetchWord && keys == 0

end Sys2Proof.Machine
end

