-- ==== Sys2Proof/Machine/Control.lean ====
section
/-!
DEFINITION. The control-flow instructions (40_control_flow.md R120 to R131). Every meaning runs after the start of the Step, so PC is
already a + 2.
-/

namespace Sys2Proof.Machine

/-- CLEAR (R120). -/
def execClear (s : State) : Host.Outcome State Fault Refusal := .next (s.setFb 0)

/-- RETURN (R121): the popped entry replaces PC; on an empty stack StackUnderflow is taken. -/
def execRet (s : State) : Host.Outcome State Fault Refusal :=
  match s.pop with
  | some (w, s') => .next (s'.setPc w)
  | none => .next (s.raise .stackUnderflow (encode .ret))

/-- JUMP nnn (R122). -/
def execJump (nnn : Addr) (s : State) : Host.Outcome State Fault Refusal := .next (s.setPc (addrWord nnn))

/-- CALL nnn (R123): the advanced PC is pushed; on a full stack StackOverflow is taken. -/
def execCall (nnn : Addr) (s : State) : Host.Outcome State Fault Refusal :=
  match s.push s.pc with
  | some s' => .next (s'.setPc (addrWord nnn))
  | none => .next (s.raise .stackOverflow (encode (.call nnn)))

/-- SKIP_EQ Vx, nn (R124). -/
def execSkipEqImm (x : Nibble) (nn : Byte) (s : State) : Host.Outcome State Fault Refusal :=
  .next (s.skipIf (s.getV x == nn))

/-- SKIP_NE Vx, nn (R125). -/
def execSkipNeImm (x : Nibble) (nn : Byte) (s : State) : Host.Outcome State Fault Refusal :=
  .next (s.skipIf (s.getV x != nn))

/-- SKIP_EQ Vx, Vy (R126). -/
def execSkipEqReg (x y : Nibble) (s : State) : Host.Outcome State Fault Refusal :=
  .next (s.skipIf (s.getV x == s.getV y))

/-- SKIP_NE Vx, Vy (R127). -/
def execSkipNeReg (x y : Nibble) (s : State) : Host.Outcome State Fault Refusal :=
  .next (s.skipIf (s.getV x != s.getV y))

/-- SKIP_KEY Vx (R128): the key is the low 4 bits of Vx. -/
def execSkipKey (x : Nibble) (s : State) : Host.Outcome State Fault Refusal :=
  .next (s.skipIf (keyDown s.keys (lowDigit (s.getV x))))

/-- SKIP_NOT_KEY Vx (R129). -/
def execSkipNotKey (x : Nibble) (s : State) : Host.Outcome State Fault Refusal :=
  .next (s.skipIf (!keyDown s.keys (lowDigit (s.getV x))))

end Sys2Proof.Machine
end

