-- ==== Sys2Proof/Machine/Display.lean ====
section
/-!
DEFINITION. The draw instruction (44_display.md R180 to R183); CLEAR is in Control.lean.
-/

namespace Sys2Proof.Machine

/-- DRAW Vx, Vy, n (R180): the blit, then VF = collision, last. -/
def execDraw (x y n : Nibble) (s : State) : Host.Outcome State Fault Refusal :=
  let r := blit s.fb (s.drawPixels x y n)
  .next ((s.setFb r.1).setV vf (flagByte r.2))

end Sys2Proof.Machine
end

