-- ==== Sys2Proof/Machine/Index.lean ====
section
/-!
DEFINITION. Memory and index-register instructions (42_memory_index.md R160 to R166). No access faults, I is left alone by the
block transfers and BCD, VF is not written as a flag.
-/

namespace Sys2Proof.Machine

/-- LOAD I, nnn (R160). -/
def execLoadI (nnn : Addr) (s : State) : Host.Outcome State Fault Refusal := .next (s.setI (addrWord nnn))

/-- ADD I, Vx (R161): modulo 2^16, no flag. -/
def execAddI (x : Nibble) (s : State) : Host.Outcome State Fault Refusal := .next (s.setI (s.i + byteWord (s.getV x)))

/-- The address of the glyph of digit `d` (R162, 20_memory.md R68). -/
def glyphAddr (d : Nat) : Word := BitVec.ofNat 16 (Config.fontBase + 5 * d)

/-- FONT Vx (R162): the digit is the low 4 bits of Vx. -/
def execFont (x : Nibble) (s : State) : Host.Outcome State Fault Refusal := .next (s.setI (glyphAddr (lowDigit (s.getV x))))

/-- STORE Vx (R163): V0 to Vx to memory from I on. -/
def execStore (x : Nibble) (s : State) : Host.Outcome State Fault Refusal := .next (s.storeRegs (x.toNat + 1))

/-- RESTORE Vx (R164): V0 to Vx from memory from I on. -/
def execRestore (x : Nibble) (s : State) : Host.Outcome State Fault Refusal := .next (s.restoreRegs (x.toNat + 1))

/-- The hundreds digit of a byte (R165). -/
def hundreds (b : Byte) : Byte := BitVec.ofNat 8 (b.toNat / 100)

/-- The tens digit of a byte (R165). -/
def tens (b : Byte) : Byte := BitVec.ofNat 8 (b.toNat / 10 % 10)

/-- The units digit of a byte (R165). -/
def units (b : Byte) : Byte := BitVec.ofNat 8 (b.toNat % 10)

/-- BCD Vx (R165): hundreds at I, tens at I + 1, units at I + 2. -/
def execBcd (x : Nibble) (s : State) : Host.Outcome State Fault Refusal :=
  let b := s.getV x
  .next (((s.memWrite (s.indexed 0) (hundreds b)).memWrite (s.indexed 1) (tens b)).memWrite (s.indexed 2) (units b))

end Sys2Proof.Machine
end

