-- ==== Sys2Proof/Machine/KeyWait.lean ====
section
/-!
DEFINITION. The blocking key wait (46_key_wait.md R200 to R202), carried by the PC alone.
-/

namespace Sys2Proof.Machine

/-- WAIT_KEY Vx (R200): with no key down the fetch advance is taken back, so that the next Step runs the same instruction; else the
number of a pressed key goes to Vx. -/
def execWaitKey (x : Nibble) (s : State) : Host.Outcome State Fault Refusal :=
  .next (if s.keys = 0 then s.setPc s.fetchAddr else s.setV x (BitVec.ofNat 8 (keySelect s.keys)))

end Sys2Proof.Machine
end

