-- ==== Sys2Proof/Machine/Random.lean ====
section
/-!
DEFINITION. The random instruction (43_random.md R175, R176).
-/

namespace Sys2Proof.Machine

/-- RANDOM Vx, nn (R175): the byte drawn for this Step, masked. -/
def execRandom (x : Nibble) (nn : Byte) (s : State) : Host.Outcome State Fault Refusal := .next (s.setV x (s.rnd &&& nn))

end Sys2Proof.Machine
end

