-- ==== Sys2Proof/Machine/Timers.lean ====
section
/-!
DEFINITION. The timer instructions (45_timers.md R190 to R193).
-/

namespace Sys2Proof.Machine

/-- GET_DELAY Vx (R190). -/
def execGetDelay (x : Nibble) (s : State) : Host.Outcome State Fault Refusal := .next (s.setV x s.dt)

/-- SET_DELAY Vx (R191). -/
def execSetDelay (x : Nibble) (s : State) : Host.Outcome State Fault Refusal := .next (s.setDt (s.getV x))

/-- SET_SOUND Vx (R192). -/
def execSetSound (x : Nibble) (s : State) : Host.Outcome State Fault Refusal := .next (s.setSt (s.getV x))

end Sys2Proof.Machine
end

