-- ==== Sys2Proof/Machine/Events.lean ====
section
/-!
DEFINITION. The events of 00_scope.md R10 and their transitions: the machine's whole interface to the outside world.
-/

namespace Sys2Proof.Machine

/-- The three atomic events (R10), and a change of the level input `paused` (R11, 60_exceptions.md R229). -/
inductive Event where
  | load (rom : List Byte)
  | step (keys : Word) (rnd : Byte)
  | tick
  | pause (level : Bool)
  deriving DecidableEq, Repr

/-- Fetch, decode and execute one instruction, the Step being enabled (30_encoding.md R102): the word is read before PC moves and
before anything executes (R91). -/
def runInstruction (keys : Word) (rnd : Byte) (s : State) : Host.Outcome State Fault Refusal :=
  match decode s.fetchWord with
  | .ok i => exec i (s.beginStep keys rnd)
  | .error _ => .next ((s.beginStep keys rnd).unknownOpcode s.fetchWord)

/-- The event Step (30_encoding.md R102). In Halted and Unloaded no Step occurs and nothing but Load goes on (60_exceptions.md R220,
70_reset_and_hazards.md R255); while `paused` is 1 everything is frozen (60_exceptions.md R229). -/
def stepEvent (keys : Word) (rnd : Byte) (s : State) : Host.Outcome State Fault Refusal :=
  match s.mode with
  | .halted => .fault .halted
  | .unloaded => .fault .unloaded
  | .active => if s.paused then .next s else runInstruction keys rnd s

/-- The event Load: accepted, or refused without any change (70_reset_and_hazards.md R250, R254). -/
def loadEvent (rom : List Byte) (s : State) : Host.Outcome State Fault Refusal :=
  match s.load rom with
  | .ok s' => .next s'
  | .error _ => .refused (.romTooLarge rom.length)

/-- One event (R10). -/
def event (e : Event) (s : State) : Host.Outcome State Fault Refusal :=
  match e with
  | .load rom => loadEvent rom s
  | .step keys rnd => stepEvent keys rnd s
  | .tick => .next s.tick
  | .pause level => .next { s with paused := level }

/-- The events of a run one after another, up to the first that has no effect to give (70_reset_and_hazards.md R257: the host may
stop after any of them). -/
def run : List Event → State → Host.Outcome State Fault Refusal
  | [], s => .next s
  | e :: more, s =>
    match event e s with
    | .next s' => run more s'
    | .fault r => .fault r
    | .refused r => .refused r

/-- The step of a machine that is left to itself: the Ticks that fall before the Step, then the Step, all inputs free
(60_exceptions.md R225, 10_state.md R34, 43_random.md R176). Where no Step occurs nothing is drawn. Log entries 3 and 4. -/
def freeStep (s : State) : Host.Outcome State Fault Refusal :=
  if s.enabled then stepEvent (Config.freeKeys s.draws) (Config.freeRnd s.draws) s.freeTicks else stepEvent 0 0 s

/-- Bytes at an address and the ones after it. -/
def State.placeBytes (a : Word) : List Byte → State → State
  | [], s => s
  | b :: more, s => (State.placeBytes (a + 1) more s).memWrite a b

/-- `s` with bytes stored where the next Step fetches, and that Step enabled. -/
def State.placeInstruction (s : State) (bytes : List Byte) : State :=
  { State.placeBytes s.pc bytes s with mode := .active, paused := false }

end Sys2Proof.Machine
end

