-- ==== Sys2Proof/Machine/Step.lean ====
section
/-!
DEFINITION. The step of the machine, and the placing of one instruction where the next step fetches it.
-/

namespace Sys2Proof.Machine

/-- One step: the next Step of a machine whose inputs are free (Events.lean). -/
def step (s : State) : Host.Outcome State Fault Refusal := freeStep s

/-- `s` with the instruction of that table word at PC, MODE Active and `paused` 0. Log entry 10. -/
def State.withFetchWord (s : State) (nbits w : Nat) : State := s.placeInstruction (bytesOfTableWord nbits w)

end Sys2Proof.Machine
end

