-- ==== Sys2Proof/Safety.lean ====
section
/-!
DEFINITION. The terms the statements use: what an instruction leaves unchanged, piece by piece of the state, and the invariant.
-/

namespace Sys2Proof.Machine

/-- Every general register but those of `P` keeps its value. -/
def KeepsRegsBut (P : Nibble → Prop) (s t : State) : Prop := ∀ r, ¬ P r → t.getV r = s.getV r

/-- Every general register keeps its value. -/
def KeepsRegs (s t : State) : Prop := ∀ r, t.getV r = s.getV r

/-- Every byte of memory reads as before, through every 16-bit address. -/
def KeepsMemory (s t : State) : Prop := ∀ a : Word, t.memRead a = s.memRead a

/-- The call stack and its depth are unchanged. -/
def KeepsStack (s t : State) : Prop := t.stack = s.stack ∧ t.sp = s.sp

/-- Both timers are unchanged. -/
def KeepsTimers (s t : State) : Prop := t.dt = s.dt ∧ t.st = s.st

/-- Every pixel is unchanged. -/
def KeepsDisplay (s t : State) : Prop := t.fb = s.fb

/-- MODE and ERR are unchanged. -/
def KeepsRunState (s t : State) : Prop := t.mode = s.mode ∧ t.err = s.err

/-- The input, parameter and model fields are unchanged. -/
def KeepsInputs (s t : State) : Prop :=
  t.keys = s.keys ∧ t.rnd = s.rnd ∧ t.paused = s.paused ∧ t.policy = s.policy ∧ t.draws = s.draws

/-- The output fields are unchanged. -/
def KeepsOutputs (s t : State) : Prop := t.fbUpdated = s.fbUpdated ∧ t.report = s.report

/-- What an instruction that computes only in the general registers leaves alone: everything but them. -/
def KeepsAllButRegs (s t : State) : Prop :=
  t.i = s.i ∧ t.pc = s.pc ∧ KeepsMemory s t ∧ KeepsStack s t ∧ KeepsTimers s t ∧ KeepsDisplay s t ∧ KeepsRunState s t ∧
    KeepsInputs s t ∧ KeepsOutputs s t

/-- What a jump, a skip or the key wait leaves alone: everything but PC. -/
def KeepsAllButPc (s t : State) : Prop :=
  KeepsRegs s t ∧ t.i = s.i ∧ KeepsMemory s t ∧ KeepsStack s t ∧ KeepsTimers s t ∧ KeepsDisplay s t ∧ KeepsRunState s t ∧
    KeepsInputs s t ∧ KeepsOutputs s t

/-- What a change of I leaves alone: everything but I. -/
def KeepsAllButI (s t : State) : Prop :=
  KeepsRegs s t ∧ t.pc = s.pc ∧ KeepsMemory s t ∧ KeepsStack s t ∧ KeepsTimers s t ∧ KeepsDisplay s t ∧ KeepsRunState s t ∧
    KeepsInputs s t ∧ KeepsOutputs s t

/-- What a store leaves alone: everything but memory. -/
def KeepsAllButMemory (s t : State) : Prop :=
  KeepsRegs s t ∧ t.i = s.i ∧ t.pc = s.pc ∧ KeepsStack s t ∧ KeepsTimers s t ∧ KeepsDisplay s t ∧ KeepsRunState s t ∧
    KeepsInputs s t ∧ KeepsOutputs s t

/-- The effect of a fatal error on the architectural state: all but ERR and MODE is as before (60_exceptions.md R219). -/
def KeepsAllButRunState (s t : State) : Prop :=
  KeepsRegs s t ∧ t.i = s.i ∧ t.pc = s.pc ∧ KeepsMemory s t ∧ KeepsStack s t ∧ KeepsTimers s t ∧ KeepsDisplay s t ∧
    KeepsInputs s t ∧ KeepsOutputs s t

/-- The record agrees with the run state: nothing is recorded while Active, and Halted shows an error a Step can raise (10_state.md
R35, 60_exceptions.md R210, R214). -/
def State.recordAgrees (s : State) : Bool :=
  match s.mode with
  | .unloaded => true
  | .active => s.err == noError
  | .halted => s.err.kind == .unknownOpcode || s.err.kind == .stackOverflow || s.err.kind == .stackUnderflow

/-- The invariant: memory has its canonical form and the error record agrees with the run state. -/
def State.Inv (s : State) : Prop := s.mem.wf = true ∧ s.recordAgrees = true

/-- The sprite of DRAW Vx, Vy, n covers pixel (px, py): the pixel lies `dx` < 8 columns and `dy` < n rows from the start, modulo the
screen, and bit 7 - dx of row dy's byte is 1 (44_display.md R180, said per pixel and not as a loop). -/
def State.spriteCovers (s : State) (x y n : Nibble) (px py : Nat) : Bool :=
  let dx := (px + 64 - (s.getV x).toNat % 64) % 64
  let dy := (py + 32 - (s.getV y).toNat % 32) % 32
  decide (dx < 8) && decide (dy < n.toNat) && (s.memRead (s.indexed dy)).getLsbD (7 - dx)

/-- How many sprite bits of DRAW Vx, Vy, n are 1. -/
def State.spriteBitCount (s : State) (n : Nibble) : Nat :=
  ((List.range n.toNat).map (fun row => (List.range 8).countP (fun k => (s.memRead (s.indexed row)).getLsbD k))).sum

/-- The instructions that write VF as a flag (10_state.md R21). -/
def writesFlag : Instr → Bool
  | .addReg _ _ | .sub _ _ | .shr _ _ | .subn _ _ | .shl _ _ | .draw _ _ _ => true
  | _ => false

/-- The registers an instruction names as its destination: the field `x`, or V0 to Vx for RESTORE (10_state.md R20). -/
def namesDestination : Instr → Nibble → Bool
  | .loadImm x _, r | .addImm x _, r | .copy x _, r | .orReg x _, r | .andReg x _, r | .xorReg x _, r | .addReg x _, r => r == x
  | .sub x _, r | .shr x _, r | .subn x _, r | .shl x _, r | .random x _, r | .getDelay x, r | .waitKey x, r => r == x
  | .restore x, r => decide (r.toNat ≤ x.toNat)
  | _, _ => false

/-- CLEAR and DRAW, the instructions that write the framebuffer (44_display.md R182). -/
def writesDisplay : Instr → Bool
  | .clear | .draw _ _ _ => true
  | _ => false

/-- STORE and BCD, the instructions that write memory (20_memory.md R67). -/
def writesMemory : Instr → Bool
  | .store _ | .bcd _ => true
  | _ => false

/-- LOAD_I, ADD_I and FONT, the instructions that write I (10_state.md R23). -/
def writesIndex : Instr → Bool
  | .loadI _ | .addI _ | .font _ => true
  | _ => false

/-- CALL and RETURN, the instructions that access the call stack (10_state.md R26). -/
def usesStack : Instr → Bool
  | .call _ | .ret => true
  | _ => false

/-- The instructions that may leave PC anywhere but at a + 2 (10_state.md R25). -/
def movesPc : Instr → Bool
  | .ret | .jump _ | .call _ | .waitKey _ => true
  | .skipEqImm _ _ | .skipNeImm _ _ | .skipEqReg _ _ | .skipNeReg _ _ | .skipKey _ | .skipNotKey _ => true
  | _ => false

/-- The instructions that read the key flags (10_state.md R34). -/
def readsKeys : Instr → Bool
  | .skipKey _ | .skipNotKey _ | .waitKey _ => true
  | _ => false

/-- The instruction that reads `rnd` (43_random.md R176). -/
def readsRnd : Instr → Bool
  | .random _ _ => true
  | _ => false

end Sys2Proof.Machine
end

