-- ==== Sys2Proof/Certificates/Slice0/Obligations.lean ====
section
/-!
DEFINITION. The statements for the provers, one definition each. A meaning runs after the start of the Step (`State.beginStep`), so
in a statement about `exec i s` the PC of `s` is a + 2, the address after the instruction, and `s.keys` and `s.rnd` are the inputs of
the Step. The bit patterns of the instructions are the spec's decision D1 and stand in DecodeOfEncode and DecodeMatchesOpcodeMap; a
statement about an instruction says what it does. A `D` number in a docstring names the spec's decision that the statement rests on.
-/

open Sys2Proof Sys2Proof.Machine

/-! ## Encoding -/

/-- Words of 95_test_vectors.md 2.1 decode to the instructions it lists, and a word of each class of R97 does not decode. -/
def Obligations.SampleWordsDecode : Prop :=
  decode 0x00E0 = .ok .clear ∧ decode 0x1234 = .ok (.jump 0x234) ∧ decode 0x3A10 = .ok (.skipEqImm 0xA 0x10) ∧
  decode 0x8AB4 = .ok (.addReg 0xA 0xB) ∧ decode 0x9120 = .ok (.skipNeReg 0x1 0x2) ∧ decode 0xD12F = .ok (.draw 0x1 0x2 0xF) ∧
  decode 0xEFA1 = .ok (.skipNotKey 0xF) ∧ decode 0xF318 = .ok (.setSound 0x3) ∧ decode 0xF965 = .ok (.restore 0x9) ∧
  decode 0x0000 = .error (.unknownSystem 0x0000) ∧ decode 0x5AB1 = .error (.unknownSkipReg 0x5AB1) ∧
  decode 0x8AB8 = .error (.unknownAlu 0x8AB8) ∧ decode 0xB123 = .error (.unknownB 0xB123) ∧
  decode 0xE39F = .error (.unknownKey 0xE39F) ∧ decode 0xFA34 = .error (.unknownMisc 0xFA34)

/-- Every instruction, at every value of its operands, is read back from its word. -/
def Obligations.DecodeOfEncode : Prop := ∀ i : Instr, decode (encode i) = .ok i

/-- Every word has one meaning: the word of the instruction that a word decodes to is that word, no bit dropped. -/
def Obligations.EncodeOfDecode : Prop := ∀ (w : Word) (i : Instr), decode w = .ok i → encode i = w

/-- Decoding is the opcode map: a word decodes exactly when a row accepts it, and then to the instruction of that row, which is the
only row that accepts it (R95 to R97, R104; the patterns are D1's). -/
def Obligations.DecodeMatchesOpcodeMap : Prop :=
  (∀ (w : Word) (i : Instr), decode w = .ok i →
    i.row.accepts w = true ∧ ∀ r ∈ opcodeMap, r.accepts w = true → r = i.row) ∧
  (∀ (w : Word) (e : DecodeError), decode w = .error e → ∀ r ∈ opcodeMap, r.accepts w = false)

/-! ## Memory and the fetch -/

/-- The fetched word is big-endian, each of its two byte addresses reduced modulo 4096 separately, at any PC (R64, R65, R91; D26). -/
def Obligations.FetchIsBigEndian : Prop :=
  ∀ s : State, s.fetchWord.toNat =
    256 * (s.mem.read (s.pc.toNat % 4096)).toNat + (s.mem.read ((s.pc.toNat + 1) % 4096)).toNat

/-- R63: the byte written is read back through every address with the same index, and nothing else changes. -/
def Obligations.ReadAfterWrite : Prop :=
  ∀ (s : State) (a : Word) (b : Byte),
    (∀ c : Word, c.toNat % 4096 = a.toNat % 4096 → (s.memWrite a b).memRead c = b) ∧
    (∀ c : Word, c.toNat % 4096 ≠ a.toNat % 4096 → (s.memWrite a b).memRead c = s.memRead c) ∧
    KeepsAllButMemory s (s.memWrite a b)

/-- A word that STORE writes is what the next Step fetches, if it starts there (R73; that STORE keeps I is D6). -/
def Obligations.StoredWordIsFetched : Prop :=
  ∀ (x : Nibble) (k : Nat) (s : State), k + 1 ≤ x.toNat → s.pc = s.indexed k →
    ∃ t, exec (.store x) s = .next t ∧
      t.fetchWord = s.getV (BitVec.ofNat 4 k) ++ s.getV (BitVec.ofNat 4 (k + 1))

/-! ## The Step -/

/-- An enabled Step runs the instruction at PC on the state after the start of the Step, and `step` does so after the Ticks that fell
before it, with free inputs; the start of the Step advances PC by 2 modulo 2^16 and samples the inputs. The Ticks and the free
inputs of `step` are the model's choice (log entries 3 and 4). -/
def Obligations.StepRunsDecodedInstruction : Prop :=
  (∀ (s : State) (i : Instr) (keys : Word) (rnd : Byte), s.mode = .active → s.paused = false →
    decode s.fetchWord = .ok i → stepEvent keys rnd s = exec i (s.beginStep keys rnd)) ∧
  (∀ (s : State) (i : Instr), s.mode = .active → s.paused = false → decode s.fetchWord = .ok i →
    step s = exec i { (s.decay (Config.freeTicks s.draws)).beginStep (Config.freeKeys s.draws) (Config.freeRnd s.draws) with
      draws := s.draws + 1 }) ∧
  (∀ (s : State) (keys : Word) (rnd : Byte),
    (s.beginStep keys rnd).pc.toNat = (s.pc.toNat + 2) % 65536 ∧ (s.beginStep keys rnd).keys = keys ∧
    (s.beginStep keys rnd).rnd = rnd ∧ (s.beginStep keys rnd).fbUpdated = false ∧ (s.beginStep keys rnd).report = none ∧
    (s.beginStep keys rnd).fetchAddr = s.pc)

/-- The placed word is what the next step fetches, on any state, and no other byte changes (the model's own placing, log entry 10). -/
def Obligations.PlacedWordIsFetched : Prop :=
  ∀ (s : State) (w : Word), (s.withFetchWord 16 w.toNat).fetchWord = w ∧ (s.withFetchWord 16 w.toNat).enabled = true ∧
    (s.withFetchWord 16 w.toNat).pc = s.pc ∧
    ∀ a : Word, memIndex a ≠ memIndex s.pc → memIndex a ≠ memIndex (s.pc + 1) →
      (s.withFetchWord 16 w.toNat).memRead a = s.memRead a

/-- An unknown word under the policy `halt`: MODE, ERR and PC as R219 says, everything else as before the Step (R211; D15; log
entry 23); the inputs are those of the Step and the outputs are cleared, as at the start of every Step (log entries 3 and 8). -/
def Obligations.UnknownWordHalts : Prop :=
  ∀ (s : State) (keys : Word) (rnd : Byte), s.mode = .active → s.paused = false → wellFormedWord s.fetchWord = false →
    s.policy = .halt →
    ∃ t, stepEvent keys rnd s = .next t ∧ t.mode = .halted ∧ t.err = ⟨.unknownOpcode, s.pc, s.fetchWord⟩ ∧
      t.pc = s.pc + 2 ∧ KeepsRegs s t ∧ t.i = s.i ∧ KeepsMemory s t ∧ KeepsStack s t ∧ KeepsTimers s t ∧ KeepsDisplay s t ∧
      t.paused = s.paused ∧ t.policy = s.policy ∧ t.draws = s.draws ∧ t.keys = keys ∧ t.rnd = rnd ∧ t.fbUpdated = false ∧
      t.report = none

/-- An unknown word under the policy `skip`: reported for the Step, PC advanced, nothing else (R222; D16; log
entries 6 and 8); the inputs are those of the Step and `fb_updated` is cleared, as at the start of every Step (log entry 3). -/
def Obligations.UnknownWordSkipped : Prop :=
  ∀ (s : State) (keys : Word) (rnd : Byte), s.mode = .active → s.paused = false → wellFormedWord s.fetchWord = false →
    s.policy = .skip →
    ∃ t, stepEvent keys rnd s = .next t ∧ t.report = some ⟨.unknownOpcode, s.pc, s.fetchWord⟩ ∧ KeepsRunState s t ∧
      t.pc = s.pc + 2 ∧ KeepsRegs s t ∧ t.i = s.i ∧ KeepsMemory s t ∧ KeepsStack s t ∧ KeepsTimers s t ∧ KeepsDisplay s t ∧
      t.paused = s.paused ∧ t.policy = s.policy ∧ t.draws = s.draws ∧ t.keys = keys ∧ t.rnd = rnd ∧ t.fbUpdated = false

/-! ## Control flow -/

/-- R120: every pixel off, `fb_updated` 1, nothing else. -/
def Obligations.ClearBlanksDisplay : Prop :=
  ∀ s : State, ∃ t, exec .clear s = .next t ∧ (∀ px py, t.pixel px py = false) ∧ t.fb = 0 ∧ t.fbUpdated = true ∧
    t.report = s.report ∧ KeepsRegs s t ∧ t.i = s.i ∧ t.pc = s.pc ∧ KeepsMemory s t ∧ KeepsStack s t ∧ KeepsTimers s t ∧
    KeepsRunState s t ∧ KeepsInputs s t

/-- R122: the target, zero-extended, replaces PC; nothing else changes. -/
def Obligations.JumpReplacesPc : Prop :=
  ∀ (nnn : Addr) (s : State), ∃ t, exec (.jump nnn) s = .next t ∧ t.pc.toNat = nnn.toNat ∧ KeepsAllButPc s t

/-- CALL with a free entry: the address after the CALL is pushed and the target replaces PC (R123; the representation is D14's). -/
def Obligations.CallPushesAndJumps : Prop :=
  ∀ (nnn : Addr) (s : State) (h : s.sp.val < 16),
    ∃ t, exec (.call nnn) s = .next t ∧ t.pc.toNat = nnn.toNat ∧ t.sp.val = s.sp.val + 1 ∧ t.stack[s.sp.val] = s.pc ∧
      (∀ (k : Nat) (hk : k < 16), k ≠ s.sp.val → t.stack[k] = s.stack[k]) ∧
      KeepsRegs s t ∧ t.i = s.i ∧ KeepsMemory s t ∧ KeepsTimers s t ∧ KeepsDisplay s t ∧ KeepsRunState s t ∧
      KeepsInputs s t ∧ KeepsOutputs s t

/-- RETURN with an entry in use: the newest entry replaces PC entirely, and keeps its value in the array (R121, R29; D14). -/
def Obligations.ReturnPopsIntoPc : Prop :=
  ∀ (n : Nat) (hn : n < 16) (s : State), s.sp.val = n + 1 →
    ∃ t, exec .ret s = .next t ∧ t.pc = s.stack[n] ∧ t.sp.val = n ∧ t.stack = s.stack ∧
      KeepsRegs s t ∧ t.i = s.i ∧ KeepsMemory s t ∧ KeepsTimers s t ∧ KeepsDisplay s t ∧ KeepsRunState s t ∧
      KeepsInputs s t ∧ KeepsOutputs s t

/-- CALL with 16 entries in use takes StackOverflow, nothing pushed and no jump; RETURN on the empty stack takes StackUnderflow, PC
not loaded. ERR and MODE are as R219 says and the rest is kept (R121, R123, R212, R213; D15). -/
def Obligations.StackErrorsHalt : Prop :=
  (∀ (nnn : Addr) (s : State), s.sp.val = 16 →
    ∃ t, exec (.call nnn) s = .next t ∧ t.mode = .halted ∧ t.err.kind = .stackOverflow ∧ t.err.addr = s.pc - 2 ∧
      t.err.opcode = encode (.call nnn) ∧ KeepsAllButRunState s t) ∧
  (∀ s : State, s.sp.val = 0 →
    ∃ t, exec .ret s = .next t ∧ t.mode = .halted ∧ t.err.kind = .stackUnderflow ∧ t.err.addr = s.pc - 2 ∧
      t.err.opcode = 0x00EE ∧ KeepsAllButRunState s t)

/-- A CALL followed by a RETURN comes back to the address after the CALL with the depth it had (R121's example; D14), whatever the
subroutine's Step inputs are. -/
def Obligations.ReturnUndoesCall : Prop :=
  ∀ (nnn : Addr) (s : State) (keys : Word) (rnd : Byte), s.sp.val < 16 →
    ∃ t u, exec (.call nnn) s = .next t ∧ exec .ret (t.beginStep keys rnd) = .next u ∧ u.pc = s.pc ∧ u.sp = s.sp

/-- R124 and R125: the two skips on an immediate add 2 to the advanced PC exactly when their condition holds. -/
def Obligations.SkipOnImmediate : Prop :=
  ∀ (x : Nibble) (nn : Byte) (s : State),
    (∃ t, exec (.skipEqImm x nn) s = .next t ∧
      t.pc.toNat = (if (s.getV x).toNat = nn.toNat then (s.pc.toNat + 2) % 65536 else s.pc.toNat) ∧ KeepsAllButPc s t) ∧
    (∃ t, exec (.skipNeImm x nn) s = .next t ∧
      t.pc.toNat = (if (s.getV x).toNat = nn.toNat then s.pc.toNat else (s.pc.toNat + 2) % 65536) ∧ KeepsAllButPc s t)

/-- R126 and R127: the two skips on registers; `x` = `y` always skips, or never. -/
def Obligations.SkipOnRegisters : Prop :=
  ∀ (x y : Nibble) (s : State),
    (∃ t, exec (.skipEqReg x y) s = .next t ∧
      t.pc.toNat = (if (s.getV x).toNat = (s.getV y).toNat then (s.pc.toNat + 2) % 65536 else s.pc.toNat) ∧
      KeepsAllButPc s t) ∧
    (∃ t, exec (.skipNeReg x y) s = .next t ∧
      t.pc.toNat = (if (s.getV x).toNat = (s.getV y).toNat then s.pc.toNat else (s.pc.toNat + 2) % 65536) ∧
      KeepsAllButPc s t)

/-- The key skips test the key numbered by the low 4 bits of Vx in the Step's input (R128, R129; D9). -/
def Obligations.SkipOnKey : Prop :=
  ∀ (x : Nibble) (s : State),
    (∃ t, exec (.skipKey x) s = .next t ∧
      t.pc = (if s.keys.getLsbD ((s.getV x).toNat % 16) = true then s.pc + 2 else s.pc) ∧ KeepsAllButPc s t) ∧
    (∃ t, exec (.skipNotKey x) s = .next t ∧
      t.pc = (if s.keys.getLsbD ((s.getV x).toNat % 16) = true then s.pc else s.pc + 2) ∧ KeepsAllButPc s t)

/-! ## Arithmetic -/

/-- R141 and R142: load and add immediate; the sum is modulo 256 and no flag is recorded, so every register but Vx is kept. -/
def Obligations.ImmediateArithmetic : Prop :=
  ∀ (x : Nibble) (nn : Byte) (s : State),
    (∃ t, exec (.loadImm x nn) s = .next t ∧ t.getV x = nn ∧ KeepsRegsBut (· = x) s t ∧ KeepsAllButRegs s t) ∧
    (∃ t, exec (.addImm x nn) s = .next t ∧ (t.getV x).toNat = ((s.getV x).toNat + nn.toNat) % 256 ∧
      KeepsRegsBut (· = x) s t ∧ KeepsAllButRegs s t)

/-- Copy and the three bitwise operations, bit by bit; VF is not written as a flag (R143 to R146; the operand roles are D1's). -/
def Obligations.CopyAndBitwise : Prop :=
  ∀ (x y : Nibble) (s : State),
    (∃ t, exec (.copy x y) s = .next t ∧ t.getV x = s.getV y ∧ KeepsRegsBut (· = x) s t ∧ KeepsAllButRegs s t) ∧
    (∃ t, exec (.orReg x y) s = .next t ∧
      (∀ k, (t.getV x).getLsbD k = ((s.getV x).getLsbD k || (s.getV y).getLsbD k)) ∧
      KeepsRegsBut (· = x) s t ∧ KeepsAllButRegs s t) ∧
    (∃ t, exec (.andReg x y) s = .next t ∧
      (∀ k, (t.getV x).getLsbD k = ((s.getV x).getLsbD k && (s.getV y).getLsbD k)) ∧
      KeepsRegsBut (· = x) s t ∧ KeepsAllButRegs s t) ∧
    (∃ t, exec (.xorReg x y) s = .next t ∧
      (∀ k, (t.getV x).getLsbD k = ((s.getV x).getLsbD k ^^ (s.getV y).getLsbD k)) ∧
      KeepsRegsBut (· = x) s t ∧ KeepsAllButRegs s t)

/-- R147: the sum modulo 256, then the carry in VF, last; with `x` = F only the carry stays. -/
def Obligations.AddWithCarry : Prop :=
  ∀ (x y : Nibble) (s : State), ∃ t, exec (.addReg x y) s = .next t ∧
    (x ≠ vf → (t.getV x).toNat = ((s.getV x).toNat + (s.getV y).toNat) % 256) ∧
    (t.getV vf).toNat = ((s.getV x).toNat + (s.getV y).toNat) / 256 ∧
    KeepsRegsBut (fun r => r = x ∨ r = vf) s t ∧ KeepsAllButRegs s t

/-- SUB and SUBN: the difference modulo 256, then VF = 1 exactly when no borrow occurs, equality included, from the operands' old
values (R148, R150; the operand roles are D1's). -/
def Obligations.SubtractWithBorrow : Prop :=
  ∀ (x y : Nibble) (s : State),
    (∃ t, exec (.sub x y) s = .next t ∧
      (x ≠ vf → (t.getV x).toNat = ((s.getV x).toNat + 256 - (s.getV y).toNat) % 256) ∧
      (t.getV vf).toNat = (if (s.getV y).toNat ≤ (s.getV x).toNat then 1 else 0) ∧
      KeepsRegsBut (fun r => r = x ∨ r = vf) s t ∧ KeepsAllButRegs s t) ∧
    (∃ t, exec (.subn x y) s = .next t ∧
      (x ≠ vf → (t.getV x).toNat = ((s.getV y).toNat + 256 - (s.getV x).toNat) % 256) ∧
      (t.getV vf).toNat = (if (s.getV x).toNat ≤ (s.getV y).toNat then 1 else 0) ∧
      KeepsRegsBut (fun r => r = x ∨ r = vf) s t ∧ KeepsAllButRegs s t)

/-- The shifts move Vx by one bit, in place, whatever `y` is, and VF becomes the bit shifted out (R149, R151; D5). -/
def Obligations.ShiftsOutABit : Prop :=
  ∀ (x y : Nibble) (s : State),
    (∃ t, exec (.shr x y) s = .next t ∧ (x ≠ vf → (t.getV x).toNat = (s.getV x).toNat / 2) ∧
      (t.getV vf).toNat = (s.getV x).toNat % 2 ∧ KeepsRegsBut (fun r => r = x ∨ r = vf) s t ∧ KeepsAllButRegs s t) ∧
    (∃ t, exec (.shl x y) s = .next t ∧ (x ≠ vf → (t.getV x).toNat = 2 * (s.getV x).toNat % 256) ∧
      (t.getV vf).toNat = (s.getV x).toNat / 128 ∧ KeepsRegsBut (fun r => r = x ∨ r = vf) s t ∧ KeepsAllButRegs s t)

/-! ## Index register and memory -/

/-- LOAD_I, ADD_I and FONT give I its value and change nothing else, VF included (R160, R161, R162; D7, D8). -/
def Obligations.IndexRegisterValues : Prop :=
  ∀ s : State,
    (∀ nnn : Addr, ∃ t, exec (.loadI nnn) s = .next t ∧ t.i.toNat = nnn.toNat ∧ KeepsAllButI s t) ∧
    (∀ x : Nibble, ∃ t, exec (.addI x) s = .next t ∧ t.i.toNat = (s.i.toNat + (s.getV x).toNat) % 65536 ∧ KeepsAllButI s t) ∧
    (∀ x : Nibble, ∃ t, exec (.font x) s = .next t ∧ t.i.toNat = 5 * ((s.getV x).toNat % 16) ∧ KeepsAllButI s t)

/-- STORE writes V0 to Vx at I, I + 1, ... and no other byte; I and the registers are kept (R163; D6). -/
def Obligations.StoreWritesBlock : Prop :=
  ∀ (x : Nibble) (s : State), ∃ t, exec (.store x) s = .next t ∧
    (∀ k, k ≤ x.toNat → t.memRead (s.indexed k) = s.getV (BitVec.ofNat 4 k)) ∧
    (∀ a : Word, (∀ k, k ≤ x.toNat → memIndex a ≠ memIndex (s.indexed k)) → t.memRead a = s.memRead a) ∧
    KeepsAllButMemory s t

/-- RESTORE loads V0 to Vx from I, I + 1, ...; the other registers, memory and I are kept (R164; D6). -/
def Obligations.RestoreLoadsBlock : Prop :=
  ∀ (x : Nibble) (s : State), ∃ t, exec (.restore x) s = .next t ∧
    (∀ k, k ≤ x.toNat → t.getV (BitVec.ofNat 4 k) = s.memRead (s.indexed k)) ∧
    KeepsRegsBut (fun r => r.toNat ≤ x.toNat) s t ∧ KeepsAllButRegs s t

/-- RESTORE after STORE with the same `x` and I returns the same values, whatever the registers became in between (R164; D6). -/
def Obligations.RestoreAfterStore : Prop :=
  ∀ (x : Nibble) (s s' t : State), exec (.store x) s = .next t → s'.mem = t.mem → s'.i = s.i →
    ∃ u, exec (.restore x) s' = .next u ∧ ∀ r : Nibble, r.toNat ≤ x.toNat → u.getV r = s.getV r

/-- BCD stores the hundreds, tens and units digits at I, I + 1, I + 2 and changes no other byte (R165; D23). -/
def Obligations.BcdStoresDigits : Prop :=
  ∀ (x : Nibble) (s : State), ∃ t, exec (.bcd x) s = .next t ∧
    (t.memRead (s.indexed 0)).toNat = (s.getV x).toNat / 100 ∧
    (t.memRead (s.indexed 1)).toNat = (s.getV x).toNat / 10 % 10 ∧
    (t.memRead (s.indexed 2)).toNat = (s.getV x).toNat % 10 ∧
    (∀ a : Word, (∀ k, k < 3 → memIndex a ≠ memIndex (s.indexed k)) → t.memRead a = s.memRead a) ∧
    KeepsAllButMemory s t

/-! ## Random, display, timers, keys -/

/-- R175: the byte drawn for the Step, masked by `nn`; nothing else changes. -/
def Obligations.RandomIsMasked : Prop :=
  ∀ (x : Nibble) (nn : Byte) (s : State), ∃ t, exec (.random x nn) s = .next t ∧ t.getV x = s.rnd &&& nn ∧
    t.getV x &&& nn = t.getV x ∧ KeepsRegsBut (· = x) s t ∧ KeepsAllButRegs s t

/-- DRAW, said per pixel: a pixel is inverted exactly when the sprite covers it, wrapping at both edges; the loop of R180 is refined
by this. VF is 1 exactly when a covered pixel was on; I, memory and every other register are kept (R180; D22). -/
def Obligations.DrawInvertsCoveredPixels : Prop :=
  ∀ (x y n : Nibble) (s : State), ∃ t, exec (.draw x y n) s = .next t ∧
    (∀ px py, px < 64 → py < 32 → t.pixel px py = (s.pixel px py ^^ s.spriteCovers x y n px py)) ∧
    ((∃ px py, px < 64 ∧ py < 32 ∧ s.spriteCovers x y n px py = true ∧ s.pixel px py = true) → t.getV vf = 1) ∧
    ((∀ px py, px < 64 → py < 32 → s.spriteCovers x y n px py = true → s.pixel px py = false) → t.getV vf = 0) ∧
    t.fbUpdated = true ∧ t.report = s.report ∧ KeepsRegsBut (· = vf) s t ∧ t.i = s.i ∧ t.pc = s.pc ∧ KeepsMemory s t ∧
    KeepsStack s t ∧ KeepsTimers s t ∧ KeepsRunState s t ∧ KeepsInputs s t

/-- R181: (a), (b) of two DRAWs of one sprite at one place (the same Vx, Vy, I, n and sprite bytes; other bytes of memory may have
changed in between), the second restores the framebuffer, and reports a collision if the first left a pixel on that it had turned
on; (c) the number of pixels a DRAW changes is the number of 1 bits in its sprite bytes; (d) pixels outside the 8 by `n` window,
taken modulo the screen, are kept; (e) VF is 1 exactly when a pixel was on and is turned off, else 0. That the window lies to the
right of and below the start, and which bytes the rows are, is D22 (log entry 17). -/
def Obligations.BlitLaws : Prop :=
  (∀ (x y n : Nibble) (s s' t : State), exec (.draw x y n) s = .next t → s'.fb = t.fb → s'.getV x = s.getV x →
    s'.getV y = s.getV y → s'.i = s.i →
    (∀ k, k < n.toNat → s'.memRead (s.indexed k) = s.memRead (s.indexed k)) →
    ∃ u, exec (.draw x y n) s' = .next u ∧ u.fb = s.fb ∧
      ((∃ p, t.fb.getLsbD p = true ∧ s.fb.getLsbD p = false) → u.getV vf = 1)) ∧
  (∀ (x y n : Nibble) (s t : State), exec (.draw x y n) s = .next t →
    (List.range 2048).countP (fun p => t.fb.getLsbD p != s.fb.getLsbD p) = s.spriteBitCount n ∧
    (∀ px py, px < 64 → py < 32 →
      8 ≤ (px + 64 - (s.getV x).toNat % 64) % 64 ∨ n.toNat ≤ (py + 32 - (s.getV y).toNat % 32) % 32 →
      t.pixel px py = s.pixel px py) ∧
    ((∃ p, s.fb.getLsbD p = true ∧ t.fb.getLsbD p = false) → t.getV vf = 1) ∧
    ((¬ ∃ p, s.fb.getLsbD p = true ∧ t.fb.getLsbD p = false) → t.getV vf = 0))

/-- R190, R191, R192: the three timer moves. -/
def Obligations.TimerMoves : Prop :=
  ∀ (x : Nibble) (s : State),
    (∃ t, exec (.getDelay x) s = .next t ∧ t.getV x = s.dt ∧ KeepsRegsBut (· = x) s t ∧ KeepsAllButRegs s t) ∧
    (∃ t, exec (.setDelay x) s = .next t ∧ t.dt = s.getV x ∧ t.st = s.st ∧ KeepsRegs s t ∧ t.i = s.i ∧ t.pc = s.pc ∧
      KeepsMemory s t ∧ KeepsStack s t ∧ KeepsDisplay s t ∧ KeepsRunState s t ∧ KeepsInputs s t ∧ KeepsOutputs s t) ∧
    (∃ t, exec (.setSound x) s = .next t ∧ t.st = s.getV x ∧ (t.sound = true ↔ 0 < (s.getV x).toNat) ∧ t.dt = s.dt ∧
      KeepsRegs s t ∧ t.i = s.i ∧ t.pc = s.pc ∧
      KeepsMemory s t ∧ KeepsStack s t ∧ KeepsDisplay s t ∧ KeepsRunState s t ∧ KeepsInputs s t ∧ KeepsOutputs s t)

/-- WAIT_KEY with a key down completes: Vx gets the number of a pressed key, and if only one is pressed, of that one (R200, R201;
D10; which of several is free, log entry 9). -/
def Obligations.WaitKeyCompletes : Prop :=
  ∀ (x : Nibble) (s : State), s.keys ≠ 0 →
    ∃ t, exec (.waitKey x) s = .next t ∧ (t.getV x).toNat < 16 ∧ s.keys.getLsbD (t.getV x).toNat = true ∧
      KeepsRegsBut (· = x) s t ∧ KeepsAllButRegs s t

/-- WAIT_KEY with no key down is a whole Step that changes nothing: PC is back at the instruction and every piece of the
architectural state is as before (R200; D10), and so are `paused`, the policy and the model's counter. -/
def Obligations.WaitKeyWaits : Prop :=
  ∀ (x : Nibble) (s : State) (rnd : Byte), s.mode = .active → s.paused = false → s.fetchWord = encode (.waitKey x) →
    ∃ t, stepEvent 0 rnd s = .next t ∧ t.pc = s.pc ∧ KeepsRegs s t ∧ t.i = s.i ∧ KeepsMemory s t ∧ KeepsStack s t ∧
      KeepsTimers s t ∧ KeepsDisplay s t ∧ KeepsRunState s t ∧ t.paused = s.paused ∧ t.policy = s.policy ∧ t.draws = s.draws

/-! ## Ticks, halting, pausing, loading -/

/-- R224: an enabled Tick decrements each timer that is above 0, independently, and changes nothing else; where it is not enabled
it does not occur, which the model says as an event without effect (its own form, log entries 5 and 12). -/
def Obligations.TickDecrementsTimers : Prop :=
  ∀ s : State, ∃ t, event .tick s = .next t ∧
    (s.mode = .active ∧ s.paused = false →
      t.dt.toNat = s.dt.toNat - 1 ∧ t.st.toNat = s.st.toNat - 1 ∧ (t.sound = true ↔ 1 < s.st.toNat) ∧ KeepsRegs s t ∧ t.i = s.i ∧ t.pc = s.pc ∧
      KeepsMemory s t ∧ KeepsStack s t ∧ KeepsDisplay s t ∧ KeepsRunState s t ∧ KeepsInputs s t ∧ KeepsOutputs s t) ∧
    (¬ (s.mode = .active ∧ s.paused = false) → t = s)

/-- Any number of Ticks in a row: each timer goes down by that number and stays at 0, and `sound` falls with ST (R224, R226, R270). -/
def Obligations.TimersRunDown : Prop :=
  ∀ (n : Nat) (s : State), s.mode = .active → s.paused = false →
    ∃ t, run (List.replicate n .tick) s = .next t ∧ t.dt.toNat = s.dt.toNat - n ∧ t.st.toNat = s.st.toNat - n ∧
      (t.sound = true ↔ n < s.st.toNat)

/-- In Halted and in Unloaded no Step and no Tick occurs, and a Load leads to Active (R220, R221, R255; D18, D27). -/
def Obligations.OnlyLoadLeavesHalt : Prop :=
  ∀ s : State, (s.mode = .halted ∨ s.mode = .unloaded) →
    (∀ keys rnd t, event (.step keys rnd) s ≠ .next t) ∧ (∀ t, step s ≠ .next t) ∧ event .tick s = .next s ∧
    ∀ rom : List Byte, rom.length ≤ 3584 → ∃ t, event (.load rom) s = .next t ∧ t.mode = .active ∧ t.err = noError

/-- While `paused` is 1 an Active machine is frozen, and when it returns to 0 it goes on from the same state (R229; D19; that a
step of a paused machine is a step without effect is the model's choice, log entry 5). -/
def Obligations.PauseFreezes : Prop :=
  ∀ s : State, s.mode = .active → s.paused = true →
    (∀ keys rnd, event (.step keys rnd) s = .next s) ∧ step s = .next s ∧ event .tick s = .next s ∧
    ∃ t, event (.pause false) s = .next t ∧ t.enabled = true ∧ { t with paused := true } = s

/-- Load gives every piece of state its value, whatever the state before: registers, PC, stack, timers, display, MODE, ERR, and
memory with the font, the ROM and zeros (R37, R250 to R253; D12, D24; the font bytes are D8's). The inputs and the parameter, which are
no state (R34, R39), and the model's counter are kept (log entry 16), and both outputs are cleared (the model's choice, log entry 8). -/
def Obligations.LoadInitialises : Prop :=
  ∀ (s : State) (rom : List Byte), rom.length ≤ 3584 →
    ∃ t, event (.load rom) s = .next t ∧ (∀ r, t.getV r = 0) ∧ t.i = 0 ∧ t.pc = 0x0200 ∧ t.sp.val = 0 ∧
      (∀ (k : Nat) (hk : k < 16), t.stack[k] = 0) ∧ t.dt = 0 ∧ t.st = 0 ∧ t.fb = 0 ∧ t.mode = .active ∧ t.err = noError ∧
      KeepsInputs s t ∧ t.fbUpdated = false ∧ t.report = none ∧
      (∀ (k : Nat) (hk : k < rom.length), t.mem.read (0x200 + k) = rom[k]) ∧
      (∀ a, a < 80 → t.mem.read a = fontTable.getD a 0) ∧
      (∀ a, 80 ≤ a → a < 0x200 ∨ 0x200 + rom.length ≤ a → t.mem.read a = 0)

/-- R254: a ROM of more than 3584 bytes is refused; the refusal carries no state, so none changes. -/
def Obligations.TooLargeRomIsRefused : Prop :=
  ∀ (s : State) (rom : List Byte), 3584 < rom.length →
    s.load rom = .error .romTooLarge ∧ event (.load rom) s = .refused (.romTooLarge rom.length)

/-- R253's corner: an empty ROM is accepted, and the first Step then raises UnknownOpcode for the word 0x0000 at 0x0200.
It rests on PC 0x0200 (D12, log entry 15), the zeros (D24, log entry 2), 0x0000 being unknown (D3, log entry 22), and the record and the
PC of an error (D15, log entry 23). -/
def Obligations.EmptyRomHaltsAtOnce : Prop :=
  ∀ (s : State) (keys : Word) (rnd : Byte), s.paused = false → s.policy = .halt →
    ∃ t, run [.load [], .step keys rnd] s = .next t ∧ t.mode = .halted ∧ t.err = ⟨.unknownOpcode, 0x0200, 0x0000⟩ ∧
      t.pc = 0x0202

/-- The values the spec's table R37 gives after Load hold at State.reset (PC is D12's), with the font in memory (D8) and zeros
elsewhere. -/
def Obligations.ResetValues : Prop :=
  (∀ r, State.reset.getV r = 0) ∧ State.reset.i = 0 ∧ State.reset.pc = 0x0200 ∧ State.reset.sp.val = 0 ∧
  (∀ (k : Nat) (hk : k < 16), State.reset.stack[k] = 0) ∧ State.reset.dt = 0 ∧ State.reset.st = 0 ∧
  State.reset.sound = false ∧ State.reset.fb = 0 ∧ State.reset.mode = .active ∧ State.reset.err = noError ∧
  (∀ a, State.reset.mem.read a = if a < 80 then fontTable.getD a 0 else 0)

/-! ## Rules about all instructions and all events -/

/-- Every instruction is one Step that completes: no instruction faults or is refused, in any state (R103, R216). -/
def Obligations.EveryInstructionCompletes : Prop := ∀ (i : Instr) (s : State), ∃ t, exec i s = .next t

/-- R21: VF is written as a flag by the six flag-writing instructions, each time with 0x00 or 0x01, and by no other; another
instruction changes it only as its destination register (that SHR and SHL take Vx is D5). -/
def Obligations.FlagWriters : Prop :=
  ∀ (i : Instr) (s t : State), exec i s = .next t →
    (writesFlag i = true → t.getV vf = 0 ∨ t.getV vf = 1) ∧
    (writesFlag i = false → namesDestination i vf = false → t.getV vf = s.getV vf)

/-- No instruction changes a general register but its destination and, for a flag-writing one, VF (R20, R21). -/
def Obligations.OnlyDestinationsChange : Prop :=
  ∀ (i : Instr) (s t : State) (r : Nibble), exec i s = .next t → namesDestination i r = false →
    (r ≠ vf ∨ writesFlag i = false) → t.getV r = s.getV r

/-- R182: of all events only a Load and a Step that runs CLEAR or DRAW change the framebuffer. -/
def Obligations.DisplayWriters : Prop :=
  ∀ (e : Event) (s t : State), event e s = .next t → t.fb ≠ s.fb →
    (∃ rom, e = .load rom) ∨
    (∃ keys rnd i, e = .step keys rnd ∧ decode s.fetchWord = .ok i ∧ (i = .clear ∨ ∃ x y n, i = .draw x y n))

/-- `fb_updated` after an enabled Step is 1 exactly when it ran DRAW or CLEAR (R183; D28). -/
def Obligations.UpdateOutputFollowsStep : Prop :=
  ∀ (s t : State) (keys : Word) (rnd : Byte), s.mode = .active → s.paused = false → stepEvent keys rnd s = .next t →
    (t.fbUpdated = true ↔ decode s.fetchWord = .ok .clear ∨ ∃ x y n, decode s.fetchWord = .ok (.draw x y n))

/-- Only STORE and BCD change memory, only LOAD_I, ADD_I and FONT change I, and only CALL and RETURN touch the stack (R67, R23,
R26). That STORE and RESTORE keep I is D6 (log entry 20), that DRAW keeps it is D22 (log entry 17), and that the stack is a register
file apart from memory is D14 (log entry 25). -/
def Obligations.MemoryIndexAndStackWriters : Prop :=
  ∀ (i : Instr) (s t : State), exec i s = .next t →
    (writesMemory i = false → KeepsMemory s t) ∧ (writesIndex i = false → t.i = s.i) ∧ (usesStack i = false → KeepsStack s t)

/-- GET_DELAY, SET_DELAY and SET_SOUND are the only instruction access to the timers: no other instruction writes DT or ST, none but
GET_DELAY depends on DT, and none depends on ST (R193). -/
def Obligations.TimerAccess : Prop :=
  ∀ (i : Instr) (s t : State) (b : Byte), exec i s = .next t →
    ((∀ x, i ≠ .setDelay x) → t.dt = s.dt) ∧ ((∀ x, i ≠ .setSound x) → t.st = s.st) ∧
    ((∀ x, i ≠ .getDelay x) → (∀ x, i ≠ .setDelay x) → exec i { s with dt := b } = .next { t with dt := b }) ∧
    ((∀ x, i ≠ .setSound x) → exec i { s with st := b } = .next { t with st := b }) ∧
    ((∃ x, i = .setDelay x) → exec i { s with dt := b } = .next t) ∧
    ((∃ x, i = .setSound x) → exec i { s with st := b } = .next t)

/-- R226: the output `sound` is 1 exactly while ST is above 0, and of all events only a Load, a Tick and a Step that runs SET_SOUND
change it. -/
def Obligations.SoundFollowsTimer : Prop :=
  (∀ s : State, s.sound = true ↔ 0 < s.st.toNat) ∧
  ∀ (e : Event) (s t : State), event e s = .next t → t.sound ≠ s.sound →
    (∃ rom, e = .load rom) ∨ e = .tick ∨ (∃ keys rnd x, e = .step keys rnd ∧ decode s.fetchWord = .ok (.setSound x))

/-- How an instruction leaves PC: at a + 2 unless it is a jump, call, return, skip or the key wait; a skip at a + 2 or a + 4; the key
wait at a + 2 or back at a (R25; D13). -/
def Obligations.PcAfterInstruction : Prop :=
  ∀ (i : Instr) (s t : State), exec i s = .next t →
    (movesPc i = false → t.pc = s.pc) ∧
    (movesPc i = true → usesStack i = false → (∀ nnn, i ≠ .jump nnn) → (∀ x, i ≠ .waitKey x) → t.pc = s.pc ∨ t.pc = s.pc + 2) ∧
    (∀ x, i = .waitKey x → t.pc = s.pc ∨ t.pc = s.pc - 2)

/-- An instruction changes MODE or ERR only by taking a stack error, and then ERR holds the address and the word of the instruction
(R216, R218, R219; D15). -/
def Obligations.OnlyStackErrorsHalt : Prop :=
  ∀ (i : Instr) (s t : State), exec i s = .next t → ¬ KeepsRunState s t →
    t.mode = .halted ∧ t.err.addr = s.pc - 2 ∧ t.err.opcode = encode i ∧ t.pc = s.pc ∧
    ((t.err.kind = .stackOverflow ∧ s.sp.val = 16 ∧ ∃ nnn, i = .call nnn) ∨
      (t.err.kind = .stackUnderflow ∧ s.sp.val = 0 ∧ i = .ret))

/-- The random byte flows into nothing but the result of RANDOM: any other instruction runs alike under every draw (R176). -/
def Obligations.RndReachesOnlyRandom : Prop :=
  ∀ (i : Instr) (s t : State) (b : Byte), readsRnd i = false → exec i s = .next t →
    exec i { s with rnd := b } = .next { t with rnd := b }

/-- The key flags flow into nothing but the key skips and the key wait (R34). -/
def Obligations.KeysReachOnlyKeyInstructions : Prop :=
  ∀ (i : Instr) (s t : State) (k : Word), readsKeys i = false → exec i s = .next t →
    exec i { s with keys := k } = .next { t with keys := k }

/-- A jump to its own address is a fixed point of Step: only the sampled inputs and the outputs of the Step differ (R257). -/
def Obligations.JumpToSelfIsFixedPoint : Prop :=
  ∀ (s : State) (nnn : Addr) (keys : Word) (rnd : Byte), s.mode = .active → s.paused = false →
    s.fetchWord = encode (.jump nnn) → s.pc.toNat = nnn.toNat →
    stepEvent keys rnd s = .next { s with keys := keys, rnd := rnd, fbUpdated := false, report := none }

/-! ## Invariants -/

/-- The invariant holds at reset. -/
def Obligations.ResetMeetsInvariant : Prop := State.reset.Inv

/-- Every step from every state that meets the invariant leads to one that meets it: memory stays canonical, and ERR agrees with
MODE. -/
def Obligations.StepKeepsInvariant : Prop := ∀ s t : State, s.Inv → step s = .next t → t.Inv

/-- Every event keeps the invariant: Load, Step with any inputs, Tick and a change of `paused`, in any order. -/
def Obligations.RunKeepsInvariant : Prop := ∀ (es : List Event) (s t : State), s.Inv → run es s = .next t → t.Inv
end

