-- ==== Sys2Proof/Laws/Decode.lean ====
section
/-!
SUPPORT. The fields of a word put together from its fields, and a word as its fields put together.
-/

namespace Sys2Proof

section Fields
variable (c x y n : Nibble) (nn : Byte) (nnn : Addr) (k : Nat)

theorem getLsbD_wordNNN :
    (wordNNN c nnn).getLsbD k = if k < 12 then nnn.getLsbD k else c.getLsbD (k - 12) := by
  exact BitVec.getLsbD_append

theorem getLsbD_wordXNN :
    (wordXNN c x nn).getLsbD k =
      if k < 8 then nn.getLsbD k else if k - 8 < 4 then x.getLsbD (k - 8) else c.getLsbD (k - 8 - 4) :=
  (BitVec.getLsbD_append (x := c ++ x) (y := nn)).trans (by rw [BitVec.getLsbD_append])

/-- The three formats are one layout: XYN is XNN with the low byte put together from two nibbles. -/
theorem wordXYN_eq : wordXYN c x y n = wordXNN c x (y ++ n) := by
  ext k hk
  have hxy : (wordXYN c x y n).getLsbD k =
      if k < 4 then n.getLsbD k else if k - 4 < 4 then y.getLsbD (k - 4) else (c ++ x).getLsbD (k - 4 - 4) :=
    (BitVec.getLsbD_append (x := c ++ x ++ y) (y := n)).trans (by rw [BitVec.getLsbD_append])
  rw [← BitVec.getLsbD_eq_getElem, ← BitVec.getLsbD_eq_getElem, hxy, getLsbD_wordXNN]
  have hlow : (y ++ n).getLsbD k = if k < 4 then n.getLsbD k else y.getLsbD (k - 4) := BitVec.getLsbD_append
  rw [BitVec.getLsbD_append]
  by_cases h4 : k < 4
  · rw [if_pos h4, if_pos (by omega : k < 8)]
    exact hlow.symm ▸ (if_pos h4).symm
  · by_cases h8 : k < 8
    · rw [if_neg h4, if_pos (by omega : k - 4 < 4), if_pos h8]
      exact hlow.symm ▸ (if_neg h4).symm
    · rw [if_neg h4, if_neg (by omega), if_neg h8, show k - 4 - 4 = k - 8 by omega]

@[simp] theorem fieldC_wordNNN : fieldC (wordNNN c nnn) = c := by
  ext k hk; simp [fieldC, getLsbD_wordNNN, BitVec.getLsbD_eq_getElem hk]
@[simp] theorem fieldNNN_wordNNN : fieldNNN (wordNNN c nnn) = nnn := by
  ext k hk; simp [fieldNNN, getLsbD_wordNNN, hk]
@[simp] theorem fieldC_wordXNN : fieldC (wordXNN c x nn) = c := by
  ext k hk
  simp [fieldC, getLsbD_wordXNN, show ¬ 12 + k < 8 by omega, show ¬ 12 + k - 8 < 4 by omega, show 12 + k - 8 - 4 = k by omega,
    BitVec.getLsbD_eq_getElem hk]
@[simp] theorem fieldX_wordXNN : fieldX (wordXNN c x nn) = x := by
  ext k hk; simp [fieldX, getLsbD_wordXNN, hk]
@[simp] theorem fieldNN_wordXNN : fieldNN (wordXNN c x nn) = nn := by
  ext k hk; simp [fieldNN, getLsbD_wordXNN, hk]
@[simp] theorem fieldC_wordXYN : fieldC (wordXYN c x y n) = c := by rw [wordXYN_eq, fieldC_wordXNN]
@[simp] theorem fieldX_wordXYN : fieldX (wordXYN c x y n) = x := by rw [wordXYN_eq, fieldX_wordXNN]

theorem fieldNN_wordXYN : fieldNN (wordXYN c x y n) = y ++ n := by rw [wordXYN_eq, fieldNN_wordXNN]

theorem getLsbD_lowByte : (y ++ n : Byte).getLsbD k = if k < 4 then n.getLsbD k else y.getLsbD (k - 4) :=
  BitVec.getLsbD_append

@[simp] theorem fieldY_wordXYN : fieldY (wordXYN c x y n) = y := by
  have h : fieldY (wordXYN c x y n) = (fieldNN (wordXYN c x y n)).extractLsb' 4 4 := by
    ext k hk; simp [fieldY, fieldNN]
  rw [h, fieldNN_wordXYN]
  ext k hk
  rw [BitVec.getElem_extractLsb', getLsbD_lowByte]
  simp [BitVec.getLsbD_eq_getElem hk]
@[simp] theorem fieldN_wordXYN : fieldN (wordXYN c x y n) = n := by
  have h : fieldN (wordXYN c x y n) = (fieldNN (wordXYN c x y n)).extractLsb' 0 4 := by
    ext k hk; simp [fieldN, fieldNN]
  rw [h, fieldNN_wordXYN]
  ext k hk
  rw [BitVec.getElem_extractLsb', getLsbD_lowByte]
  simp [hk]

end Fields

/-! A word is its fields. -/

theorem wordNNN_fields (w : Word) : wordNNN (fieldC w) (fieldNNN w) = w := by
  ext k hk
  rw [← BitVec.getLsbD_eq_getElem, getLsbD_wordNNN, ← BitVec.getLsbD_eq_getElem]
  by_cases h : k < 12
  · simp [fieldNNN, h]
  · simp [fieldC, h, show k - 12 < 4 by omega, show 12 + (k - 12) = k by omega]

theorem wordXNN_fields (w : Word) : wordXNN (fieldC w) (fieldX w) (fieldNN w) = w := by
  ext k hk
  rw [← BitVec.getLsbD_eq_getElem, getLsbD_wordXNN, ← BitVec.getLsbD_eq_getElem]
  by_cases h : k < 8
  · simp [fieldNN, h]
  · by_cases h' : k - 8 < 4
    · simp [fieldX, h, h', show 8 + (k - 8) = k by omega]
    · simp [fieldC, h, h', show k - 8 - 4 < 4 by omega, show 12 + (k - 8 - 4) = k by omega]

theorem wordXYN_fields (w : Word) : wordXYN (fieldC w) (fieldX w) (fieldY w) (fieldN w) = w := by
  have h : fieldY w ++ fieldN w = fieldNN w := by
    ext k hk
    rw [← BitVec.getLsbD_eq_getElem, ← BitVec.getLsbD_eq_getElem, BitVec.getLsbD_append]
    by_cases h : k < 4
    · simp [fieldN, fieldNN, h, show k < 8 by omega]
    · simp [fieldY, fieldNN, h, show k < 8 by omega, show k - 4 < 4 by omega, show 4 + (k - 4) = k by omega]
  rw [wordXYN_eq, h, wordXNN_fields]

/-! The masks of the opcode map keep whole fields. -/

theorem and_F000 (w : Word) : w &&& 0xF000 = wordNNN (fieldC w) 0 := by
  ext k hk
  rw [← BitVec.getLsbD_eq_getElem, ← BitVec.getLsbD_eq_getElem, getLsbD_wordNNN]
  interval_cases k <;> simp [fieldC]

theorem and_F00F (w : Word) : w &&& 0xF00F = wordXYN (fieldC w) 0 0 (fieldN w) := by
  rw [wordXYN_eq]
  ext k hk
  rw [← BitVec.getLsbD_eq_getElem, ← BitVec.getLsbD_eq_getElem, getLsbD_wordXNN, getLsbD_lowByte]
  interval_cases k <;> simp [fieldC, fieldN]

theorem and_F0FF (w : Word) : w &&& 0xF0FF = wordXNN (fieldC w) 0 (fieldNN w) := by
  ext k hk
  rw [← BitVec.getLsbD_eq_getElem, ← BitVec.getLsbD_eq_getElem, getLsbD_wordXNN]
  interval_cases k <;> simp [fieldC, fieldNN]

theorem and_FFFF (w : Word) : w &&& 0xFFFF = w := by
  ext k hk
  interval_cases k <;> simp

end Sys2Proof
end

