-- ==== Sys2Proof/Laws/State.lean ====
section
/-!
SUPPORT. One lemma per field per update of State (true by rfl, in the simp set), so that no later proof unfolds a record update.
-/

namespace Sys2Proof.Machine

variable (s : State)

/-! ## setV -/

@[simp] theorem setV_v (x : Nibble) (b : Byte) : (s.setV x b).v = s.v.set x.toNat b x.isLt := rfl
@[simp] theorem setV_i (x : Nibble) (b : Byte) : (s.setV x b).i = s.i := rfl
@[simp] theorem setV_pc (x : Nibble) (b : Byte) : (s.setV x b).pc = s.pc := rfl
@[simp] theorem setV_stack (x : Nibble) (b : Byte) : (s.setV x b).stack = s.stack := rfl
@[simp] theorem setV_sp (x : Nibble) (b : Byte) : (s.setV x b).sp = s.sp := rfl
@[simp] theorem setV_dt (x : Nibble) (b : Byte) : (s.setV x b).dt = s.dt := rfl
@[simp] theorem setV_st (x : Nibble) (b : Byte) : (s.setV x b).st = s.st := rfl
@[simp] theorem setV_fb (x : Nibble) (b : Byte) : (s.setV x b).fb = s.fb := rfl
@[simp] theorem setV_mode (x : Nibble) (b : Byte) : (s.setV x b).mode = s.mode := rfl
@[simp] theorem setV_err (x : Nibble) (b : Byte) : (s.setV x b).err = s.err := rfl
@[simp] theorem setV_mem (x : Nibble) (b : Byte) : (s.setV x b).mem = s.mem := rfl
@[simp] theorem setV_fbUpdated (x : Nibble) (b : Byte) : (s.setV x b).fbUpdated = s.fbUpdated := rfl
@[simp] theorem setV_report (x : Nibble) (b : Byte) : (s.setV x b).report = s.report := rfl
@[simp] theorem setV_keys (x : Nibble) (b : Byte) : (s.setV x b).keys = s.keys := rfl
@[simp] theorem setV_rnd (x : Nibble) (b : Byte) : (s.setV x b).rnd = s.rnd := rfl
@[simp] theorem setV_paused (x : Nibble) (b : Byte) : (s.setV x b).paused = s.paused := rfl
@[simp] theorem setV_policy (x : Nibble) (b : Byte) : (s.setV x b).policy = s.policy := rfl
@[simp] theorem setV_draws (x : Nibble) (b : Byte) : (s.setV x b).draws = s.draws := rfl
@[simp] theorem setV_memRead (x : Nibble) (b : Byte) (c : Word) : (s.setV x b).memRead c = s.memRead c := rfl
@[simp] theorem setV_indexed (x : Nibble) (b : Byte) (k : Nat) : (s.setV x b).indexed k = s.indexed k := rfl
@[simp] theorem setV_fetchAddr (x : Nibble) (b : Byte) : (s.setV x b).fetchAddr = s.fetchAddr := rfl

/-! ## setI -/

@[simp] theorem setI_v (w : Word) : (s.setI w).v = s.v := rfl
@[simp] theorem setI_i (w : Word) : (s.setI w).i = w := rfl
@[simp] theorem setI_pc (w : Word) : (s.setI w).pc = s.pc := rfl
@[simp] theorem setI_stack (w : Word) : (s.setI w).stack = s.stack := rfl
@[simp] theorem setI_sp (w : Word) : (s.setI w).sp = s.sp := rfl
@[simp] theorem setI_dt (w : Word) : (s.setI w).dt = s.dt := rfl
@[simp] theorem setI_st (w : Word) : (s.setI w).st = s.st := rfl
@[simp] theorem setI_fb (w : Word) : (s.setI w).fb = s.fb := rfl
@[simp] theorem setI_mode (w : Word) : (s.setI w).mode = s.mode := rfl
@[simp] theorem setI_err (w : Word) : (s.setI w).err = s.err := rfl
@[simp] theorem setI_mem (w : Word) : (s.setI w).mem = s.mem := rfl
@[simp] theorem setI_fbUpdated (w : Word) : (s.setI w).fbUpdated = s.fbUpdated := rfl
@[simp] theorem setI_report (w : Word) : (s.setI w).report = s.report := rfl
@[simp] theorem setI_keys (w : Word) : (s.setI w).keys = s.keys := rfl
@[simp] theorem setI_rnd (w : Word) : (s.setI w).rnd = s.rnd := rfl
@[simp] theorem setI_paused (w : Word) : (s.setI w).paused = s.paused := rfl
@[simp] theorem setI_policy (w : Word) : (s.setI w).policy = s.policy := rfl
@[simp] theorem setI_draws (w : Word) : (s.setI w).draws = s.draws := rfl
@[simp] theorem setI_getV (w : Word) (r : Nibble) : (s.setI w).getV r = s.getV r := rfl
@[simp] theorem setI_memRead (w : Word) (c : Word) : (s.setI w).memRead c = s.memRead c := rfl
@[simp] theorem setI_fetchAddr (w : Word) : (s.setI w).fetchAddr = s.fetchAddr := rfl

/-! ## setPc -/

@[simp] theorem setPc_v (w : Word) : (s.setPc w).v = s.v := rfl
@[simp] theorem setPc_i (w : Word) : (s.setPc w).i = s.i := rfl
@[simp] theorem setPc_pc (w : Word) : (s.setPc w).pc = w := rfl
@[simp] theorem setPc_stack (w : Word) : (s.setPc w).stack = s.stack := rfl
@[simp] theorem setPc_sp (w : Word) : (s.setPc w).sp = s.sp := rfl
@[simp] theorem setPc_dt (w : Word) : (s.setPc w).dt = s.dt := rfl
@[simp] theorem setPc_st (w : Word) : (s.setPc w).st = s.st := rfl
@[simp] theorem setPc_fb (w : Word) : (s.setPc w).fb = s.fb := rfl
@[simp] theorem setPc_mode (w : Word) : (s.setPc w).mode = s.mode := rfl
@[simp] theorem setPc_err (w : Word) : (s.setPc w).err = s.err := rfl
@[simp] theorem setPc_mem (w : Word) : (s.setPc w).mem = s.mem := rfl
@[simp] theorem setPc_fbUpdated (w : Word) : (s.setPc w).fbUpdated = s.fbUpdated := rfl
@[simp] theorem setPc_report (w : Word) : (s.setPc w).report = s.report := rfl
@[simp] theorem setPc_keys (w : Word) : (s.setPc w).keys = s.keys := rfl
@[simp] theorem setPc_rnd (w : Word) : (s.setPc w).rnd = s.rnd := rfl
@[simp] theorem setPc_paused (w : Word) : (s.setPc w).paused = s.paused := rfl
@[simp] theorem setPc_policy (w : Word) : (s.setPc w).policy = s.policy := rfl
@[simp] theorem setPc_draws (w : Word) : (s.setPc w).draws = s.draws := rfl
@[simp] theorem setPc_getV (w : Word) (r : Nibble) : (s.setPc w).getV r = s.getV r := rfl
@[simp] theorem setPc_memRead (w : Word) (c : Word) : (s.setPc w).memRead c = s.memRead c := rfl
@[simp] theorem setPc_indexed (w : Word) (k : Nat) : (s.setPc w).indexed k = s.indexed k := rfl

/-! ## memWrite -/

@[simp] theorem memWrite_v (a : Word) (b : Byte) : (s.memWrite a b).v = s.v := rfl
@[simp] theorem memWrite_i (a : Word) (b : Byte) : (s.memWrite a b).i = s.i := rfl
@[simp] theorem memWrite_pc (a : Word) (b : Byte) : (s.memWrite a b).pc = s.pc := rfl
@[simp] theorem memWrite_stack (a : Word) (b : Byte) : (s.memWrite a b).stack = s.stack := rfl
@[simp] theorem memWrite_sp (a : Word) (b : Byte) : (s.memWrite a b).sp = s.sp := rfl
@[simp] theorem memWrite_dt (a : Word) (b : Byte) : (s.memWrite a b).dt = s.dt := rfl
@[simp] theorem memWrite_st (a : Word) (b : Byte) : (s.memWrite a b).st = s.st := rfl
@[simp] theorem memWrite_fb (a : Word) (b : Byte) : (s.memWrite a b).fb = s.fb := rfl
@[simp] theorem memWrite_mode (a : Word) (b : Byte) : (s.memWrite a b).mode = s.mode := rfl
@[simp] theorem memWrite_err (a : Word) (b : Byte) : (s.memWrite a b).err = s.err := rfl
@[simp] theorem memWrite_mem (a : Word) (b : Byte) : (s.memWrite a b).mem = s.mem.write (memIndex a) b := rfl
@[simp] theorem memWrite_fbUpdated (a : Word) (b : Byte) : (s.memWrite a b).fbUpdated = s.fbUpdated := rfl
@[simp] theorem memWrite_report (a : Word) (b : Byte) : (s.memWrite a b).report = s.report := rfl
@[simp] theorem memWrite_keys (a : Word) (b : Byte) : (s.memWrite a b).keys = s.keys := rfl
@[simp] theorem memWrite_rnd (a : Word) (b : Byte) : (s.memWrite a b).rnd = s.rnd := rfl
@[simp] theorem memWrite_paused (a : Word) (b : Byte) : (s.memWrite a b).paused = s.paused := rfl
@[simp] theorem memWrite_policy (a : Word) (b : Byte) : (s.memWrite a b).policy = s.policy := rfl
@[simp] theorem memWrite_draws (a : Word) (b : Byte) : (s.memWrite a b).draws = s.draws := rfl
@[simp] theorem memWrite_getV (a : Word) (b : Byte) (r : Nibble) : (s.memWrite a b).getV r = s.getV r := rfl
@[simp] theorem memWrite_indexed (a : Word) (b : Byte) (k : Nat) : (s.memWrite a b).indexed k = s.indexed k := rfl
@[simp] theorem memWrite_fetchAddr (a : Word) (b : Byte) : (s.memWrite a b).fetchAddr = s.fetchAddr := rfl

/-! ## setFb -/

@[simp] theorem setFb_v (f : Framebuffer) : (s.setFb f).v = s.v := rfl
@[simp] theorem setFb_i (f : Framebuffer) : (s.setFb f).i = s.i := rfl
@[simp] theorem setFb_pc (f : Framebuffer) : (s.setFb f).pc = s.pc := rfl
@[simp] theorem setFb_stack (f : Framebuffer) : (s.setFb f).stack = s.stack := rfl
@[simp] theorem setFb_sp (f : Framebuffer) : (s.setFb f).sp = s.sp := rfl
@[simp] theorem setFb_dt (f : Framebuffer) : (s.setFb f).dt = s.dt := rfl
@[simp] theorem setFb_st (f : Framebuffer) : (s.setFb f).st = s.st := rfl
@[simp] theorem setFb_fb (f : Framebuffer) : (s.setFb f).fb = f := rfl
@[simp] theorem setFb_mode (f : Framebuffer) : (s.setFb f).mode = s.mode := rfl
@[simp] theorem setFb_err (f : Framebuffer) : (s.setFb f).err = s.err := rfl
@[simp] theorem setFb_mem (f : Framebuffer) : (s.setFb f).mem = s.mem := rfl
@[simp] theorem setFb_fbUpdated (f : Framebuffer) : (s.setFb f).fbUpdated = true := rfl
@[simp] theorem setFb_report (f : Framebuffer) : (s.setFb f).report = s.report := rfl
@[simp] theorem setFb_keys (f : Framebuffer) : (s.setFb f).keys = s.keys := rfl
@[simp] theorem setFb_rnd (f : Framebuffer) : (s.setFb f).rnd = s.rnd := rfl
@[simp] theorem setFb_paused (f : Framebuffer) : (s.setFb f).paused = s.paused := rfl
@[simp] theorem setFb_policy (f : Framebuffer) : (s.setFb f).policy = s.policy := rfl
@[simp] theorem setFb_draws (f : Framebuffer) : (s.setFb f).draws = s.draws := rfl
@[simp] theorem setFb_getV (f : Framebuffer) (r : Nibble) : (s.setFb f).getV r = s.getV r := rfl
@[simp] theorem setFb_memRead (f : Framebuffer) (c : Word) : (s.setFb f).memRead c = s.memRead c := rfl
@[simp] theorem setFb_indexed (f : Framebuffer) (k : Nat) : (s.setFb f).indexed k = s.indexed k := rfl
@[simp] theorem setFb_fetchAddr (f : Framebuffer) : (s.setFb f).fetchAddr = s.fetchAddr := rfl

/-! ## setDt -/

@[simp] theorem setDt_v (b : Byte) : (s.setDt b).v = s.v := rfl
@[simp] theorem setDt_i (b : Byte) : (s.setDt b).i = s.i := rfl
@[simp] theorem setDt_pc (b : Byte) : (s.setDt b).pc = s.pc := rfl
@[simp] theorem setDt_stack (b : Byte) : (s.setDt b).stack = s.stack := rfl
@[simp] theorem setDt_sp (b : Byte) : (s.setDt b).sp = s.sp := rfl
@[simp] theorem setDt_dt (b : Byte) : (s.setDt b).dt = b := rfl
@[simp] theorem setDt_st (b : Byte) : (s.setDt b).st = s.st := rfl
@[simp] theorem setDt_fb (b : Byte) : (s.setDt b).fb = s.fb := rfl
@[simp] theorem setDt_mode (b : Byte) : (s.setDt b).mode = s.mode := rfl
@[simp] theorem setDt_err (b : Byte) : (s.setDt b).err = s.err := rfl
@[simp] theorem setDt_mem (b : Byte) : (s.setDt b).mem = s.mem := rfl
@[simp] theorem setDt_fbUpdated (b : Byte) : (s.setDt b).fbUpdated = s.fbUpdated := rfl
@[simp] theorem setDt_report (b : Byte) : (s.setDt b).report = s.report := rfl
@[simp] theorem setDt_keys (b : Byte) : (s.setDt b).keys = s.keys := rfl
@[simp] theorem setDt_rnd (b : Byte) : (s.setDt b).rnd = s.rnd := rfl
@[simp] theorem setDt_paused (b : Byte) : (s.setDt b).paused = s.paused := rfl
@[simp] theorem setDt_policy (b : Byte) : (s.setDt b).policy = s.policy := rfl
@[simp] theorem setDt_draws (b : Byte) : (s.setDt b).draws = s.draws := rfl
@[simp] theorem setDt_getV (b : Byte) (r : Nibble) : (s.setDt b).getV r = s.getV r := rfl
@[simp] theorem setDt_memRead (b : Byte) (c : Word) : (s.setDt b).memRead c = s.memRead c := rfl
@[simp] theorem setDt_indexed (b : Byte) (k : Nat) : (s.setDt b).indexed k = s.indexed k := rfl
@[simp] theorem setDt_fetchAddr (b : Byte) : (s.setDt b).fetchAddr = s.fetchAddr := rfl

/-! ## setSt -/

@[simp] theorem setSt_v (b : Byte) : (s.setSt b).v = s.v := rfl
@[simp] theorem setSt_i (b : Byte) : (s.setSt b).i = s.i := rfl
@[simp] theorem setSt_pc (b : Byte) : (s.setSt b).pc = s.pc := rfl
@[simp] theorem setSt_stack (b : Byte) : (s.setSt b).stack = s.stack := rfl
@[simp] theorem setSt_sp (b : Byte) : (s.setSt b).sp = s.sp := rfl
@[simp] theorem setSt_dt (b : Byte) : (s.setSt b).dt = s.dt := rfl
@[simp] theorem setSt_st (b : Byte) : (s.setSt b).st = b := rfl
@[simp] theorem setSt_fb (b : Byte) : (s.setSt b).fb = s.fb := rfl
@[simp] theorem setSt_mode (b : Byte) : (s.setSt b).mode = s.mode := rfl
@[simp] theorem setSt_err (b : Byte) : (s.setSt b).err = s.err := rfl
@[simp] theorem setSt_mem (b : Byte) : (s.setSt b).mem = s.mem := rfl
@[simp] theorem setSt_fbUpdated (b : Byte) : (s.setSt b).fbUpdated = s.fbUpdated := rfl
@[simp] theorem setSt_report (b : Byte) : (s.setSt b).report = s.report := rfl
@[simp] theorem setSt_keys (b : Byte) : (s.setSt b).keys = s.keys := rfl
@[simp] theorem setSt_rnd (b : Byte) : (s.setSt b).rnd = s.rnd := rfl
@[simp] theorem setSt_paused (b : Byte) : (s.setSt b).paused = s.paused := rfl
@[simp] theorem setSt_policy (b : Byte) : (s.setSt b).policy = s.policy := rfl
@[simp] theorem setSt_draws (b : Byte) : (s.setSt b).draws = s.draws := rfl
@[simp] theorem setSt_getV (b : Byte) (r : Nibble) : (s.setSt b).getV r = s.getV r := rfl
@[simp] theorem setSt_memRead (b : Byte) (c : Word) : (s.setSt b).memRead c = s.memRead c := rfl
@[simp] theorem setSt_indexed (b : Byte) (k : Nat) : (s.setSt b).indexed k = s.indexed k := rfl
@[simp] theorem setSt_fetchAddr (b : Byte) : (s.setSt b).fetchAddr = s.fetchAddr := rfl

/-! ## raise -/

@[simp] theorem raise_v (e : ErrKind) (op : Word) : (s.raise e op).v = s.v := rfl
@[simp] theorem raise_i (e : ErrKind) (op : Word) : (s.raise e op).i = s.i := rfl
@[simp] theorem raise_pc (e : ErrKind) (op : Word) : (s.raise e op).pc = s.pc := rfl
@[simp] theorem raise_stack (e : ErrKind) (op : Word) : (s.raise e op).stack = s.stack := rfl
@[simp] theorem raise_sp (e : ErrKind) (op : Word) : (s.raise e op).sp = s.sp := rfl
@[simp] theorem raise_dt (e : ErrKind) (op : Word) : (s.raise e op).dt = s.dt := rfl
@[simp] theorem raise_st (e : ErrKind) (op : Word) : (s.raise e op).st = s.st := rfl
@[simp] theorem raise_fb (e : ErrKind) (op : Word) : (s.raise e op).fb = s.fb := rfl
@[simp] theorem raise_mode (e : ErrKind) (op : Word) : (s.raise e op).mode = .halted := rfl
@[simp] theorem raise_err (e : ErrKind) (op : Word) : (s.raise e op).err = ⟨e, s.fetchAddr, op⟩ := rfl
@[simp] theorem raise_mem (e : ErrKind) (op : Word) : (s.raise e op).mem = s.mem := rfl
@[simp] theorem raise_fbUpdated (e : ErrKind) (op : Word) : (s.raise e op).fbUpdated = s.fbUpdated := rfl
@[simp] theorem raise_report (e : ErrKind) (op : Word) : (s.raise e op).report = s.report := rfl
@[simp] theorem raise_keys (e : ErrKind) (op : Word) : (s.raise e op).keys = s.keys := rfl
@[simp] theorem raise_rnd (e : ErrKind) (op : Word) : (s.raise e op).rnd = s.rnd := rfl
@[simp] theorem raise_paused (e : ErrKind) (op : Word) : (s.raise e op).paused = s.paused := rfl
@[simp] theorem raise_policy (e : ErrKind) (op : Word) : (s.raise e op).policy = s.policy := rfl
@[simp] theorem raise_draws (e : ErrKind) (op : Word) : (s.raise e op).draws = s.draws := rfl
@[simp] theorem raise_getV (e : ErrKind) (op : Word) (r : Nibble) : (s.raise e op).getV r = s.getV r := rfl
@[simp] theorem raise_memRead (e : ErrKind) (op : Word) (c : Word) : (s.raise e op).memRead c = s.memRead c := rfl
@[simp] theorem raise_indexed (e : ErrKind) (op : Word) (k : Nat) : (s.raise e op).indexed k = s.indexed k := rfl
@[simp] theorem raise_fetchAddr (e : ErrKind) (op : Word) : (s.raise e op).fetchAddr = s.fetchAddr := rfl

/-! ## beginStep -/

@[simp] theorem beginStep_v (ks : Word) (rb : Byte) : (s.beginStep ks rb).v = s.v := rfl
@[simp] theorem beginStep_i (ks : Word) (rb : Byte) : (s.beginStep ks rb).i = s.i := rfl
@[simp] theorem beginStep_pc (ks : Word) (rb : Byte) : (s.beginStep ks rb).pc = s.pc + 2 := rfl
@[simp] theorem beginStep_stack (ks : Word) (rb : Byte) : (s.beginStep ks rb).stack = s.stack := rfl
@[simp] theorem beginStep_sp (ks : Word) (rb : Byte) : (s.beginStep ks rb).sp = s.sp := rfl
@[simp] theorem beginStep_dt (ks : Word) (rb : Byte) : (s.beginStep ks rb).dt = s.dt := rfl
@[simp] theorem beginStep_st (ks : Word) (rb : Byte) : (s.beginStep ks rb).st = s.st := rfl
@[simp] theorem beginStep_fb (ks : Word) (rb : Byte) : (s.beginStep ks rb).fb = s.fb := rfl
@[simp] theorem beginStep_mode (ks : Word) (rb : Byte) : (s.beginStep ks rb).mode = s.mode := rfl
@[simp] theorem beginStep_err (ks : Word) (rb : Byte) : (s.beginStep ks rb).err = s.err := rfl
@[simp] theorem beginStep_mem (ks : Word) (rb : Byte) : (s.beginStep ks rb).mem = s.mem := rfl
@[simp] theorem beginStep_fbUpdated (ks : Word) (rb : Byte) : (s.beginStep ks rb).fbUpdated = false := rfl
@[simp] theorem beginStep_report (ks : Word) (rb : Byte) : (s.beginStep ks rb).report = none := rfl
@[simp] theorem beginStep_keys (ks : Word) (rb : Byte) : (s.beginStep ks rb).keys = ks := rfl
@[simp] theorem beginStep_rnd (ks : Word) (rb : Byte) : (s.beginStep ks rb).rnd = rb := rfl
@[simp] theorem beginStep_paused (ks : Word) (rb : Byte) : (s.beginStep ks rb).paused = s.paused := rfl
@[simp] theorem beginStep_policy (ks : Word) (rb : Byte) : (s.beginStep ks rb).policy = s.policy := rfl
@[simp] theorem beginStep_draws (ks : Word) (rb : Byte) : (s.beginStep ks rb).draws = s.draws := rfl
@[simp] theorem beginStep_getV (ks : Word) (rb : Byte) (r : Nibble) : (s.beginStep ks rb).getV r = s.getV r := rfl
@[simp] theorem beginStep_memRead (ks : Word) (rb : Byte) (c : Word) : (s.beginStep ks rb).memRead c = s.memRead c := rfl
@[simp] theorem beginStep_indexed (ks : Word) (rb : Byte) (k : Nat) : (s.beginStep ks rb).indexed k = s.indexed k := rfl

/-! ## decay -/

@[simp] theorem decay_v (n : Nat) : (s.decay n).v = s.v := rfl
@[simp] theorem decay_i (n : Nat) : (s.decay n).i = s.i := rfl
@[simp] theorem decay_pc (n : Nat) : (s.decay n).pc = s.pc := rfl
@[simp] theorem decay_stack (n : Nat) : (s.decay n).stack = s.stack := rfl
@[simp] theorem decay_sp (n : Nat) : (s.decay n).sp = s.sp := rfl
@[simp] theorem decay_dt (n : Nat) : (s.decay n).dt = decayed n s.dt := rfl
@[simp] theorem decay_st (n : Nat) : (s.decay n).st = decayed n s.st := rfl
@[simp] theorem decay_fb (n : Nat) : (s.decay n).fb = s.fb := rfl
@[simp] theorem decay_mode (n : Nat) : (s.decay n).mode = s.mode := rfl
@[simp] theorem decay_err (n : Nat) : (s.decay n).err = s.err := rfl
@[simp] theorem decay_mem (n : Nat) : (s.decay n).mem = s.mem := rfl
@[simp] theorem decay_fbUpdated (n : Nat) : (s.decay n).fbUpdated = s.fbUpdated := rfl
@[simp] theorem decay_report (n : Nat) : (s.decay n).report = s.report := rfl
@[simp] theorem decay_keys (n : Nat) : (s.decay n).keys = s.keys := rfl
@[simp] theorem decay_rnd (n : Nat) : (s.decay n).rnd = s.rnd := rfl
@[simp] theorem decay_paused (n : Nat) : (s.decay n).paused = s.paused := rfl
@[simp] theorem decay_policy (n : Nat) : (s.decay n).policy = s.policy := rfl
@[simp] theorem decay_draws (n : Nat) : (s.decay n).draws = s.draws := rfl
@[simp] theorem decay_getV (n : Nat) (r : Nibble) : (s.decay n).getV r = s.getV r := rfl
@[simp] theorem decay_memRead (n : Nat) (c : Word) : (s.decay n).memRead c = s.memRead c := rfl
@[simp] theorem decay_indexed (n : Nat) (k : Nat) : (s.decay n).indexed k = s.indexed k := rfl
@[simp] theorem decay_fetchAddr (n : Nat) : (s.decay n).fetchAddr = s.fetchAddr := rfl

/-! ## freeTicks -/

@[simp] theorem freeTicks_v : (s.freeTicks).v = s.v := rfl
@[simp] theorem freeTicks_i : (s.freeTicks).i = s.i := rfl
@[simp] theorem freeTicks_pc : (s.freeTicks).pc = s.pc := rfl
@[simp] theorem freeTicks_stack : (s.freeTicks).stack = s.stack := rfl
@[simp] theorem freeTicks_sp : (s.freeTicks).sp = s.sp := rfl
@[simp] theorem freeTicks_dt : (s.freeTicks).dt = decayed (Config.freeTicks s.draws) s.dt := rfl
@[simp] theorem freeTicks_st : (s.freeTicks).st = decayed (Config.freeTicks s.draws) s.st := rfl
@[simp] theorem freeTicks_fb : (s.freeTicks).fb = s.fb := rfl
@[simp] theorem freeTicks_mode : (s.freeTicks).mode = s.mode := rfl
@[simp] theorem freeTicks_err : (s.freeTicks).err = s.err := rfl
@[simp] theorem freeTicks_mem : (s.freeTicks).mem = s.mem := rfl
@[simp] theorem freeTicks_fbUpdated : (s.freeTicks).fbUpdated = s.fbUpdated := rfl
@[simp] theorem freeTicks_report : (s.freeTicks).report = s.report := rfl
@[simp] theorem freeTicks_keys : (s.freeTicks).keys = s.keys := rfl
@[simp] theorem freeTicks_rnd : (s.freeTicks).rnd = s.rnd := rfl
@[simp] theorem freeTicks_paused : (s.freeTicks).paused = s.paused := rfl
@[simp] theorem freeTicks_policy : (s.freeTicks).policy = s.policy := rfl
@[simp] theorem freeTicks_draws : (s.freeTicks).draws = s.draws + 1 := rfl
@[simp] theorem freeTicks_getV (r : Nibble) : (s.freeTicks).getV r = s.getV r := rfl
@[simp] theorem freeTicks_memRead (c : Word) : (s.freeTicks).memRead c = s.memRead c := rfl
@[simp] theorem freeTicks_indexed (k : Nat) : (s.freeTicks).indexed k = s.indexed k := rfl
@[simp] theorem freeTicks_fetchAddr : (s.freeTicks).fetchAddr = s.fetchAddr := rfl

/-! ## Registers -/

/-- A register reads what was last written to it; no register is hardwired (10_state.md R20). -/
theorem setV_getV (x r : Nibble) (b : Byte) : (s.setV x b).getV r = if r = x then b else s.getV r := by
  unfold State.setV State.getV
  simp only [Vector.getElem_set, ← BitVec.toNat_inj]
  by_cases h : x.toNat = r.toNat
  · simp [h]
  · simp [h, Ne.symm h]

@[simp] theorem setV_getV_same (x : Nibble) (b : Byte) : (s.setV x b).getV x = b := by simp [setV_getV]

theorem setV_getV_other {x r : Nibble} (b : Byte) (h : r ≠ x) : (s.setV x b).getV r = s.getV r := by simp [setV_getV, h]

/-- Two register files that read alike are equal. -/
theorem v_ext {s t : State} (h : ∀ r, t.getV r = s.getV r) : t.v = s.v := by
  apply Vector.ext
  intro k hk
  have := h (BitVec.ofNat 4 k)
  unfold State.getV at this
  have hk' : (BitVec.ofNat 4 k).toNat = k := by simp; omega
  simpa [hk'] using this

end Sys2Proof.Machine
end

