-- ==== Sys2Proof/Laws/Memory.lean ====
section
/-!
SUPPORT. The laws of the store: read after write, other bytes alone, and the canonical form, which every memory operation keeps.
-/

namespace Sys2Proof.Machine

/-! ## One cell -/

theorem find_insertCell_same (a : Nat) (b : Byte) (l : List Host.Cell) :
    (insertCell a b l).find? (fun c => c.1 == a) = some (a, b) := by
  induction l with
  | nil => simp [insertCell]
  | cons c rest ih =>
    unfold insertCell
    split
    · rename_i h
      rw [List.find?_cons_of_neg (by simp; omega)]
      exact ih
    · simp

theorem find_insertCell_other {a a' : Nat} (h : a' ≠ a) (b : Byte) (l : List Host.Cell) :
    (insertCell a b l).find? (fun c => c.1 == a') = l.find? (fun c => c.1 == a') := by
  induction l with
  | nil => simp [insertCell, Ne.symm h]
  | cons c rest ih =>
    unfold insertCell
    split
    · simp only [List.find?_cons]; rw [ih]
    · simp [List.find?_cons, Ne.symm h]

theorem find_filter_same (a : Nat) (l : List Host.Cell) :
    (l.filter (fun c => c.1 != a)).find? (fun c => c.1 == a) = none := by
  simp

theorem find_filter_other {a a' : Nat} (h : a' ≠ a) (l : List Host.Cell) :
    (l.filter (fun c => c.1 != a)).find? (fun c => c.1 == a') = l.find? (fun c => c.1 == a') := by
  induction l with
  | nil => rfl
  | cons c rest ih =>
    by_cases hc : c.1 = a
    · rw [List.filter_cons_of_neg (by simp [hc]), ih, List.find?_cons_of_neg (by simp [hc, Ne.symm h])]
    · rw [List.filter_cons_of_pos (by simp [hc]), List.find?_cons, List.find?_cons, ih]

/-- The byte written is read back (20_memory.md R63). -/
theorem Memory.read_write_same (m : Memory) (a : Nat) (b : Byte) : (m.write a b).read a = b := by
  unfold Memory.write Memory.read
  by_cases h : b = unlisted a
  · simp only [h, if_true]
    rw [find_filter_same]
  · simp only [h, if_false]
    rw [find_insertCell_same]

/-- Every other byte is left alone (20_memory.md R63). -/
theorem Memory.read_write_other (m : Memory) {a a' : Nat} (h : a' ≠ a) (b : Byte) : (m.write a b).read a' = m.read a' := by
  unfold Memory.write Memory.read
  by_cases hb : b = unlisted a
  · simp only [hb, if_true]
    rw [find_filter_other h]
  · simp only [hb, if_false]
    rw [find_insertCell_other h, find_filter_other h]

theorem Memory.read_write (m : Memory) (a a' : Nat) (b : Byte) :
    (m.write a b).read a' = if a' = a then b else m.read a' := by
  split
  · subst_vars; exact m.read_write_same _ b
  · exact m.read_write_other ‹_› b

/-! ## The canonical form -/

theorem canonicalFrom_cons {low : Nat} {c : Host.Cell} {rest : List Host.Cell} :
    canonicalFrom low (c :: rest) = true ↔
      low ≤ c.1 ∧ c.1 < Config.memSize ∧ c.2 ≠ unlisted c.1 ∧ canonicalFrom (c.1 + 1) rest = true := by
  simp [canonicalFrom, and_assoc]

theorem canonicalFrom_mono {low low' : Nat} (h : low' ≤ low) :
    ∀ {l : List Host.Cell}, canonicalFrom low l = true → canonicalFrom low' l = true
  | [], _ => rfl
  | c :: rest, hl => by
    rw [canonicalFrom_cons] at hl ⊢
    exact ⟨Nat.le_trans h hl.1, hl.2⟩

theorem canonicalFrom_filter (p : Host.Cell → Bool) :
    ∀ {low : Nat} {l : List Host.Cell}, canonicalFrom low l = true → canonicalFrom low (l.filter p) = true
  | _, [], _ => rfl
  | low, c :: rest, hl => by
    rw [canonicalFrom_cons] at hl
    have ih := canonicalFrom_filter p hl.2.2.2
    by_cases hp : p c = true
    · rw [List.filter_cons_of_pos hp, canonicalFrom_cons]
      exact ⟨hl.1, hl.2.1, hl.2.2.1, ih⟩
    · rw [List.filter_cons_of_neg hp]
      exact canonicalFrom_mono (by omega) ih

theorem canonicalFrom_insertCell {a : Nat} {b : Byte} (ha : a < Config.memSize) (hb : b ≠ unlisted a) :
    ∀ {low : Nat} {l : List Host.Cell}, low ≤ a → (∀ c ∈ l, c.1 ≠ a) → canonicalFrom low l = true →
      canonicalFrom low (insertCell a b l) = true
  | _, [], hlow, _, _ => by simp [insertCell, canonicalFrom, hlow, ha, hb]
  | low, c :: rest, hlow, hne, hl => by
    rw [canonicalFrom_cons] at hl
    have hca : c.1 ≠ a := hne c (by simp)
    unfold insertCell
    split
    · rename_i hlt
      rw [canonicalFrom_cons]
      exact ⟨hl.1, hl.2.1, hl.2.2.1,
        canonicalFrom_insertCell ha hb hlt (fun d hd => hne d (by simp [hd])) hl.2.2.2⟩
    · rw [canonicalFrom_cons, canonicalFrom_cons]
      exact ⟨hlow, ha, hb, by simp only; omega, hl.2⟩

/-- A write inside the store keeps the canonical form. -/
theorem Memory.write_wf {m : Memory} {a : Nat} {b : Byte} (ha : a < Config.memSize) (hm : m.wf = true) :
    (m.write a b).wf = true := by
  unfold Memory.write Memory.wf
  by_cases hb : b = unlisted a
  · simp only [hb, if_true]
    exact canonicalFrom_filter _ hm
  · simp only [hb, if_false]
    exact canonicalFrom_insertCell ha hb (Nat.zero_le _) (by simp) (canonicalFrom_filter _ hm)

theorem memIndex_lt (a : Word) : memIndex a < Config.memSize := Nat.mod_lt _ (by decide)

/-- Every write of the machine keeps the canonical form. -/
theorem memWrite_wf {s : State} (a : Word) (b : Byte) (h : s.mem.wf = true) : (s.memWrite a b).mem.wf = true :=
  Memory.write_wf (memIndex_lt a) h

/-- MemRead after MemWrite, for any two 16-bit addresses (20_memory.md R62, R63). -/
theorem memWrite_memRead (s : State) (a c : Word) (b : Byte) :
    (s.memWrite a b).memRead c = if memIndex c = memIndex a then b else s.memRead c :=
  Memory.read_write _ _ _ _

theorem reset_mem_wf : State.reset.mem.wf = true := rfl

end Sys2Proof.Machine
end

