-- ==== Sys2Proof/Laws/Ops.lean ====
section
/-!
SUPPORT. What each shared operation can do, said once: the call stack, the block transfers, the blit, the timers, Load and the start
of a Step.
-/

namespace Sys2Proof.Machine

/-! ## Running -/

theorem enabled_iff (s : State) : s.enabled = true ↔ s.mode = .active ∧ s.paused = false := by
  simp [State.enabled]

theorem stepEvent_enabled {s : State} (keys : Word) (rnd : Byte) (hm : s.mode = .active) (hp : s.paused = false) :
    stepEvent keys rnd s = runInstruction keys rnd s := by
  unfold stepEvent; rw [hm]; simp [hp]

theorem stepEvent_paused {s : State} (keys : Word) (rnd : Byte) (hm : s.mode = .active) (hp : s.paused = true) :
    stepEvent keys rnd s = .next s := by
  unfold stepEvent; rw [hm]; simp [hp]

theorem runInstruction_ok {s : State} {i : Instr} (keys : Word) (rnd : Byte) (h : decode s.fetchWord = .ok i) :
    runInstruction keys rnd s = exec i (s.beginStep keys rnd) := by
  unfold runInstruction; rw [h]

theorem runInstruction_error {s : State} {e : DecodeError} (keys : Word) (rnd : Byte) (h : decode s.fetchWord = .error e) :
    runInstruction keys rnd s = .next ((s.beginStep keys rnd).unknownOpcode s.fetchWord) := by
  unfold runInstruction; rw [h]

/-- The address of the running instruction is where PC was before the start of the Step. -/
@[simp] theorem beginStep_fetchAddr (s : State) (keys : Word) (rnd : Byte) : (s.beginStep keys rnd).fetchAddr = s.pc := by
  simp [State.fetchAddr]

@[simp] theorem freeTicks_fetchWord (s : State) : s.freeTicks.fetchWord = s.fetchWord := rfl

/-- A step of a machine whose Step is enabled is the event Step after the Ticks. -/
theorem step_enabled {s : State} (h : s.enabled = true) :
    step s = stepEvent (Config.freeKeys s.draws) (Config.freeRnd s.draws) s.freeTicks := by
  unfold step freeStep; rw [if_pos h]

theorem step_not_enabled {s : State} (h : s.enabled = false) : step s = stepEvent 0 0 s := by
  unfold step freeStep; rw [if_neg (by simp [h])]

theorem unknownOpcode_halt {s : State} (op : Word) (h : s.policy = .halt) : s.unknownOpcode op = s.raise .unknownOpcode op := by
  unfold State.unknownOpcode; rw [h]

theorem unknownOpcode_skip {s : State} (op : Word) (h : s.policy = .skip) :
    s.unknownOpcode op = { s with report := some ⟨.unknownOpcode, s.fetchAddr, op⟩ } := by
  unfold State.unknownOpcode; rw [h]

/-! ## The call stack -/

theorem push_of_lt {s : State} (w : Word) (h : s.sp.val < 16) :
    s.push w = some { s with stack := s.stack.set s.sp.val w h, sp := ⟨s.sp.val + 1, Nat.succ_lt_succ h⟩ } := dif_pos h

theorem push_full {s : State} (w : Word) (h : s.sp.val = 16) : s.push w = none := dif_neg (by omega)

theorem pop_of_pos {s : State} (h : 0 < s.sp.val) :
    s.pop = some (s.stack[s.sp.val - 1]'(by have := s.sp.isLt; omega),
      { s with sp := ⟨s.sp.val - 1, by have := s.sp.isLt; omega⟩ }) := dif_pos h

theorem pop_empty {s : State} (h : s.sp.val = 0) : s.pop = none := dif_neg (by omega)

/-! ## Addresses -/

theorem memIndex_indexed (s : State) (k : Nat) : memIndex (s.indexed k) = (s.i.toNat + k) % 4096 := by
  simp only [memIndex, State.indexed, Config.memSize, BitVec.toNat_add, BitVec.toNat_ofNat]
  omega

/-- The bytes of a block of fewer than 4096 are all different. -/
theorem indexed_ne {s : State} {j k : Nat} (hjk : j ≠ k) (hj : j < 4096) (hk : k < 4096) :
    memIndex (s.indexed j) ≠ memIndex (s.indexed k) := by
  rw [memIndex_indexed, memIndex_indexed]; omega

theorem ofNat_inj_nibble {j k : Nat} (hj : j < 16) (hk : k < 16) (h : BitVec.ofNat 4 j = BitVec.ofNat 4 k) : j = k := by
  have := congrArg BitVec.toNat h
  simp at this; omega

/-! ## Block transfers -/

/-- A block store changes memory only. -/
theorem storeRegs_eq (s : State) (k : Nat) : s.storeRegs k = { s with mem := (s.storeRegs k).mem } := by
  induction k with
  | zero => rfl
  | succ k ih => simp only [State.storeRegs, State.memWrite]; rw [ih]

@[simp] theorem storeRegs_getV (s : State) (k : Nat) (r : Nibble) : (s.storeRegs k).getV r = s.getV r := by
  rw [storeRegs_eq]; rfl

@[simp] theorem storeRegs_indexed (s : State) (k j : Nat) : (s.storeRegs k).indexed j = s.indexed j := by
  rw [storeRegs_eq]; rfl

/-- After a block store the block holds the registers, in ascending order (42_memory_index.md R163). -/
theorem storeRegs_memRead_block (s : State) {n k : Nat} (hn : n ≤ 16) (hk : k < n) :
    (s.storeRegs n).memRead (s.indexed k) = s.getV (BitVec.ofNat 4 k) := by
  induction n with
  | zero => omega
  | succ n ih =>
    simp only [State.storeRegs, memWrite_memRead, storeRegs_indexed, storeRegs_getV]
    by_cases h : k = n
    · simp [h]
    · rw [if_neg (indexed_ne h (by omega) (by omega)), ih (by omega) (by omega)]

/-- A block store leaves every byte outside the block alone. -/
theorem storeRegs_memRead_other (s : State) {n : Nat} {a : Word} (h : ∀ k, k < n → memIndex a ≠ memIndex (s.indexed k)) :
    (s.storeRegs n).memRead a = s.memRead a := by
  induction n with
  | zero => rfl
  | succ n ih =>
    simp only [State.storeRegs, memWrite_memRead, storeRegs_indexed]
    rw [if_neg (h n (by omega)), ih (fun k hk => h k (by omega))]

theorem storeRegs_wf {s : State} (n : Nat) (h : s.mem.wf = true) : (s.storeRegs n).mem.wf = true := by
  induction n with
  | zero => exact h
  | succ n ih => exact memWrite_wf _ _ ih

/-- A block load changes the registers only. -/
theorem restoreRegs_eq (s : State) (k : Nat) : s.restoreRegs k = { s with v := (s.restoreRegs k).v } := by
  induction k with
  | zero => rfl
  | succ k ih => simp only [State.restoreRegs, State.setV]; rw [ih]

@[simp] theorem restoreRegs_memRead (s : State) (k : Nat) (a : Word) : (s.restoreRegs k).memRead a = s.memRead a := by
  rw [restoreRegs_eq]; rfl

@[simp] theorem restoreRegs_indexed (s : State) (k j : Nat) : (s.restoreRegs k).indexed j = s.indexed j := by
  rw [restoreRegs_eq]; rfl

/-- After a block load the registers hold the block (42_memory_index.md R164). -/
theorem restoreRegs_getV_block (s : State) {n k : Nat} (hn : n ≤ 16) (hk : k < n) :
    (s.restoreRegs n).getV (BitVec.ofNat 4 k) = s.memRead (s.indexed k) := by
  induction n with
  | zero => omega
  | succ n ih =>
    simp only [State.restoreRegs, restoreRegs_indexed, restoreRegs_memRead]
    by_cases h : k = n
    · subst h; rw [setV_getV_same]
    · rw [setV_getV_other _ _ (fun e => h (ofNat_inj_nibble (by omega) (by omega) e)), ih (by omega) (by omega)]

/-- A block load leaves the registers above the block alone. -/
theorem restoreRegs_getV_other (s : State) {n : Nat} {r : Nibble} (h : n ≤ r.toNat) : (s.restoreRegs n).getV r = s.getV r := by
  induction n with
  | zero => rfl
  | succ n ih =>
    have hne : r ≠ BitVec.ofNat 4 n := by
      intro e
      have := congrArg BitVec.toNat e
      have := r.isLt
      simp at *; omega
    simp only [State.restoreRegs]
    rw [setV_getV_other _ _ hne, ih (by omega)]

/-! ## The blit -/

theorem togglePixel_getLsbD (acc : Framebuffer × Bool) (q p : Nat) (hp : p < 2048) :
    (togglePixel acc q).1.getLsbD p = (acc.1.getLsbD p ^^ decide (p = q)) := by
  simp only [togglePixel, BitVec.getLsbD_xor, BitVec.getLsbD_twoPow]
  by_cases h : q = p
  · simp [h, hp]
  · simp [h, Ne.symm h]

/-- The blit over pixels that are all different: exactly they are inverted, and a collision is one of them having been on. -/
theorem foldl_togglePixel {ps : List Nat} (hnd : ps.Nodup) (hlt : ∀ p ∈ ps, p < 2048) (acc : Framebuffer × Bool) :
    (∀ p, p < 2048 → (ps.foldl togglePixel acc).1.getLsbD p = (acc.1.getLsbD p ^^ decide (p ∈ ps))) ∧
    (ps.foldl togglePixel acc).2 = (acc.2 || ps.any (fun p => acc.1.getLsbD p)) := by
  induction ps generalizing acc with
  | nil => simp
  | cons q ps ih =>
    rw [List.nodup_cons] at hnd
    obtain ⟨ih1, ih2⟩ := ih hnd.2 (fun p hp => hlt p (by simp [hp])) (togglePixel acc q)
    constructor
    · intro p hp
      rw [List.foldl_cons, ih1 p hp, togglePixel_getLsbD _ _ _ hp]
      by_cases h : p = q
      · subst h; simp [hnd.1]
      · simp [h]
    · rw [List.foldl_cons, ih2]
      have hany : ps.any (fun p => (togglePixel acc q).1.getLsbD p) = ps.any (fun p => acc.1.getLsbD p) := by
        rw [Bool.eq_iff_iff, List.any_eq_true, List.any_eq_true]
        refine exists_congr fun p => and_congr_right fun hp => ?_
        have hne : p ≠ q := by rintro rfl; exact hnd.1 hp
        rw [togglePixel_getLsbD _ _ _ (hlt p (by simp [hp]))]
        simp [hne]
      rw [hany]
      simp [togglePixel, Bool.or_assoc]

theorem mem_rowPixels {x0 py p : Nat} {b : Byte} :
    p ∈ rowPixels x0 py b ↔ ∃ col, col < 8 ∧ b.getLsbD (7 - col) = true ∧ p = pixelIndex ((x0 + col) % 64) py := by
  simp only [rowPixels, List.mem_map, List.mem_filter, List.mem_range, Config.displayW]
  exact exists_congr fun col => by rw [and_assoc, eq_comm (a := p)]

theorem mem_spritePixels {x0 y0 p : Nat} {bs : List Byte} {row : Nat} :
    p ∈ spritePixels x0 y0 row bs ↔
      ∃ (k : Nat) (hk : k < bs.length) (col : Nat), col < 8 ∧ bs[k].getLsbD (7 - col) = true ∧
        p = pixelIndex ((x0 + col) % 64) ((y0 + (row + k)) % 32) := by
  induction bs generalizing row with
  | nil => simp [spritePixels]
  | cons b bs ih =>
    simp only [spritePixels, List.mem_append, mem_rowPixels, Config.displayH, ih]
    constructor
    · rintro (⟨col, h1, h2, h3⟩ | ⟨k, hk, col, h1, h2, h3⟩)
      · exact ⟨0, by simp, col, h1, by simpa using h2, by simpa using h3⟩
      · exact ⟨k + 1, by simp; omega, col, h1, by simpa using h2, by rw [h3]; congr 3; omega⟩
    · rintro ⟨k, hk, col, h1, h2, h3⟩
      cases k with
      | zero => exact .inl ⟨col, h1, by simpa using h2, by simpa using h3⟩
      | succ k =>
        exact .inr ⟨k, by simpa using hk, col, h1, by simpa using h2, by rw [h3]; congr 3; omega⟩

theorem pixelIndex_inj {px py qx qy : Nat} (hpx : px < 64) (hqx : qx < 64) (h : pixelIndex px py = pixelIndex qx qy) :
    px = qx ∧ py = qy := by
  simp only [pixelIndex, Config.displayW] at h; omega

theorem rowPixels_nodup (x0 py : Nat) (b : Byte) : (rowPixels x0 py b).Nodup := by
  unfold rowPixels
  refine List.Nodup.map_on ?_ (List.nodup_range.filter _)
  intro c hc d hd h
  simp only [List.mem_filter, List.mem_range, Config.displayW] at hc hd h
  have := (pixelIndex_inj (Nat.mod_lt _ (by decide)) (Nat.mod_lt _ (by decide)) h).1
  omega

/-- Within one sprite no pixel is touched twice (44_display.md R180, corner case 4). -/
theorem spritePixels_nodup (x0 y0 : Nat) {bs : List Byte} {row : Nat} (h : row + bs.length ≤ 32) :
    (spritePixels x0 y0 row bs).Nodup := by
  induction bs generalizing row with
  | nil => simp [spritePixels]
  | cons b bs ih =>
    simp only [List.length_cons] at h
    simp only [spritePixels]
    refine List.nodup_append.2 ⟨rowPixels_nodup _ _ _, ih (by omega), ?_⟩
    intro p hp q hq hpq
    subst hpq
    obtain ⟨c, _, _, e⟩ := mem_rowPixels.1 hp
    obtain ⟨k, hk, d, _, _, e'⟩ := mem_spritePixels.1 hq
    have := (pixelIndex_inj (Nat.mod_lt _ (by decide)) (Nat.mod_lt _ (by decide)) (e.symm.trans e')).2
    simp only [Config.displayH] at this
    omega

theorem spriteBytes_length (s : State) (n : Nat) : (s.spriteBytes n).length = n := by simp [State.spriteBytes]

theorem drawPixels_nodup (s : State) (x y n : Nibble) : (s.drawPixels x y n).Nodup :=
  spritePixels_nodup _ _ (by rw [spriteBytes_length]; have := n.isLt; omega)

/-- The pixels DRAW targets are exactly those the sprite covers. -/
theorem mem_drawPixels {s : State} {x y n : Nibble} {p : Nat} :
    p ∈ s.drawPixels x y n ↔
      ∃ px py, px < 64 ∧ py < 32 ∧ p = pixelIndex px py ∧ s.spriteCovers x y n px py = true := by
  have hn := n.isLt
  simp only [State.drawPixels, mem_spritePixels, Config.displayW, Config.displayH, State.spriteCovers, Bool.and_eq_true,
    decide_eq_true_eq]
  constructor
  · rintro ⟨k, hk, col, h1, h2, h3⟩
    rw [spriteBytes_length] at hk
    refine ⟨_, _, Nat.mod_lt _ (by decide), Nat.mod_lt _ (by decide), h3, ?_⟩
    have hx : (((s.getV x).toNat % 64 + col) % 64 + 64 - (s.getV x).toNat % 64) % 64 = col := by omega
    have hy : (((s.getV y).toNat % 32 + (0 + k)) % 32 + 32 - (s.getV y).toNat % 32) % 32 = k := by omega
    rw [hx, hy]
    exact ⟨⟨h1, hk⟩, by simpa [State.spriteBytes] using h2⟩
  · rintro ⟨px, py, hpx, hpy, hp, ⟨h1, h2⟩, h3⟩
    refine ⟨_, by rw [spriteBytes_length]; exact h2, _, h1, by simpa [State.spriteBytes] using h3, ?_⟩
    rw [hp]; congr 1 <;> omega

theorem drawPixels_lt {s : State} {x y n : Nibble} {p : Nat} (h : p ∈ s.drawPixels x y n) : p < 2048 := by
  obtain ⟨px, py, hpx, hpy, rfl, _⟩ := mem_drawPixels.1 h
  simp only [pixelIndex, Config.displayW]; omega

/-- DRAW's pixels depend on Vx, Vy, I and the sprite's own bytes, and on nothing else of the state. -/
theorem drawPixels_congr {s s' : State} {x y n : Nibble} (hx : s'.getV x = s.getV x) (hy : s'.getV y = s.getV y)
    (hi : s'.i = s.i) (hb : ∀ k, k < n.toNat → s'.memRead (s.indexed k) = s.memRead (s.indexed k)) :
    s'.drawPixels x y n = s.drawPixels x y n := by
  simp only [State.drawPixels, State.spriteBytes, hx, hy]
  congr 1
  refine List.map_congr_left fun k hk => ?_
  have : s'.indexed k = s.indexed k := by simp only [State.indexed, hi]
  rw [this, hb k (List.mem_range.1 hk)]

/-- What a DRAW does to a framebuffer: exactly its pixels are inverted. -/
theorem blit_getLsbD (fb : Framebuffer) (s : State) (x y n : Nibble) {p : Nat} (hp : p < 2048) :
    (blit fb (s.drawPixels x y n)).1.getLsbD p = (fb.getLsbD p ^^ decide (p ∈ s.drawPixels x y n)) :=
  (foldl_togglePixel (drawPixels_nodup s x y n) (fun _ => drawPixels_lt) (fb, false)).1 p hp

/-- The collision of a DRAW: one of its pixels was on. -/
theorem blit_collision (fb : Framebuffer) (s : State) (x y n : Nibble) :
    (blit fb (s.drawPixels x y n)).2 = (s.drawPixels x y n).any (fun p => fb.getLsbD p) := by
  unfold blit
  simpa using (foldl_togglePixel (drawPixels_nodup s x y n) (fun _ => drawPixels_lt) (fb, false)).2

/-! ## The timers -/

theorem decrement_eq (t : Byte) : decrement t = decayed 1 t := by
  unfold decrement decayed
  split
  · apply BitVec.eq_of_toNat_eq; simp; omega
  · have : t.toNat = 0 := by omega
    rw [this]; apply BitVec.eq_of_toNat_eq; simpa using this

theorem decayed_toNat (n : Nat) (t : Byte) : (decayed n t).toNat = t.toNat - n := by
  unfold decayed; simp; omega

theorem decayed_decayed (m n : Nat) (t : Byte) : decayed m (decayed n t) = decayed (m + n) t := by
  apply BitVec.eq_of_toNat_eq; simp only [decayed_toNat]; omega

@[simp] theorem decay_enabled (s : State) (n : Nat) : (s.decay n).enabled = s.enabled := rfl

theorem tick_of_enabled {s : State} (h : s.enabled = true) : s.tick = s.decay 1 := by
  unfold State.tick State.decay; rw [if_pos h, decrement_eq, decrement_eq]

theorem tick_of_not_enabled {s : State} (h : s.enabled = false) : s.tick = s := by
  unfold State.tick; rw [if_neg (by simp [h])]

/-- The closed form that `step` uses is the event Tick repeated (60_exceptions.md R224, R225). -/
theorem decay_eq_iterate_tick {s : State} (h : s.enabled = true) (n : Nat) : State.tick^[n] s = s.decay n := by
  induction n with
  | zero => simp [State.decay, decayed]
  | succ n ih =>
    rw [Function.iterate_succ_apply', ih, tick_of_enabled (by simpa using h)]
    simp [State.decay, decayed_decayed, Nat.add_comm]

/-! ## Load -/

theorem load_ok {s : State} {rom : List Byte} (h : rom.length ≤ 3584) :
    s.load rom = .ok { State.reset with
      mem := romMemory Config.progBase rom
      keys := s.keys, rnd := s.rnd, paused := s.paused, policy := s.policy, draws := s.draws } := by
  unfold State.load; rw [if_pos (by simp [wellFormedRom, Config.romMax, h])]

theorem load_error {s : State} {rom : List Byte} (h : 3584 < rom.length) : s.load rom = .error .romTooLarge := by
  have hw : wellFormedRom rom = false := decide_eq_false (by simp only [Config.romMax]; omega)
  unfold State.load; rw [hw]; rfl

/-- An accepted Load, as an event. -/
theorem event_load_ok {s : State} {rom : List Byte} (h : rom.length ≤ 3584) :
    event (.load rom) s = .next { State.reset with
      mem := romMemory Config.progBase rom
      keys := s.keys, rnd := s.rnd, paused := s.paused, policy := s.policy, draws := s.draws } := by
  show loadEvent rom s = _
  unfold loadEvent; rw [load_ok h]

/-- A refused Load, as an event. -/
theorem event_load_error {s : State} {rom : List Byte} (h : 3584 < rom.length) :
    event (.load rom) s = .refused (.romTooLarge rom.length) := by
  show loadEvent rom s = _
  unfold loadEvent; rw [load_error h]

/-- Byte `k` of the ROM stands `k` after the base; every other byte is as after reset (70_reset_and_hazards.md R251 to R253). -/
theorem romMemory_read (rom : List Byte) (base a : Nat) :
    (romMemory base rom).read a = if h : base ≤ a ∧ a - base < rom.length then rom[a - base] else unlisted a := by
  induction rom generalizing base with
  | nil => simp [romMemory, Memory.read]
  | cons b rom ih =>
    simp only [romMemory, Memory.read_write, ih]
    by_cases ha : a = base
    · subst ha; simp
    · rw [if_neg ha]
      by_cases h : base + 1 ≤ a ∧ a - (base + 1) < rom.length
      · have h' : base ≤ a ∧ a - base < (b :: rom).length := by simp only [List.length_cons]; omega
        rw [dif_pos h, dif_pos h']
        have : a - base = (a - (base + 1)) + 1 := by omega
        simp [this]
      · have h' : ¬ (base ≤ a ∧ a - base < (b :: rom).length) := by simp only [List.length_cons]; omega
        rw [dif_neg h, dif_neg h']

theorem romMemory_wf (rom : List Byte) (base : Nat) (h : base + rom.length ≤ 4096) : (romMemory base rom).wf = true := by
  induction rom generalizing base with
  | nil => rfl
  | cons b rom ih =>
    simp only [List.length_cons] at h
    exact Memory.write_wf (by simp only [Config.memSize]; omega) (ih (base + 1) (by omega))

end Sys2Proof.Machine
end

