-- ==== Sys2Proof/Laws/Exec.lean ====
section
/-!
SUPPORT. What each instruction does, one equation per instruction over the shared operations, cited instead of unfolding exec.
-/

namespace Sys2Proof.Machine

variable (s : State)

theorem exec_clear : exec .clear s = .next (s.setFb 0) := rfl
theorem exec_jump (nnn : Addr) : exec (.jump nnn) s = .next (s.setPc (addrWord nnn)) := rfl

theorem exec_call_of_lt {s : State} (nnn : Addr) (h : s.sp.val < 16) :
    exec (.call nnn) s = .next (State.setPc
      { s with stack := s.stack.set s.sp.val s.pc h, sp := ⟨s.sp.val + 1, Nat.succ_lt_succ h⟩ } (addrWord nnn)) := by
  show execCall nnn s = _
  unfold execCall; rw [push_of_lt _ h]

theorem exec_call_full {s : State} (nnn : Addr) (h : s.sp.val = 16) :
    exec (.call nnn) s = .next (s.raise .stackOverflow (encode (.call nnn))) := by
  show execCall nnn s = _
  unfold execCall; rw [push_full _ h]

theorem exec_ret_of_pos {s : State} (h : 0 < s.sp.val) :
    exec .ret s = .next (State.setPc { s with sp := ⟨s.sp.val - 1, by have := s.sp.isLt; omega⟩ }
      (s.stack[s.sp.val - 1]'(by have := s.sp.isLt; omega))) := by
  show execRet s = _
  unfold execRet; rw [pop_of_pos h]

theorem exec_ret_empty {s : State} (h : s.sp.val = 0) : exec .ret s = .next (s.raise .stackUnderflow (encode .ret)) := by
  show execRet s = _
  unfold execRet; rw [pop_empty h]

section
variable (x y n : Nibble) (nn : Byte) (nnn : Addr)

theorem exec_skipEqImm : exec (.skipEqImm x nn) s = .next (s.skipIf (s.getV x == nn)) := rfl
theorem exec_skipNeImm : exec (.skipNeImm x nn) s = .next (s.skipIf (s.getV x != nn)) := rfl
theorem exec_skipEqReg : exec (.skipEqReg x y) s = .next (s.skipIf (s.getV x == s.getV y)) := rfl
theorem exec_skipNeReg : exec (.skipNeReg x y) s = .next (s.skipIf (s.getV x != s.getV y)) := rfl
theorem exec_skipKey : exec (.skipKey x) s = .next (s.skipIf (keyDown s.keys (lowDigit (s.getV x)))) := rfl
theorem exec_skipNotKey : exec (.skipNotKey x) s = .next (s.skipIf (!keyDown s.keys (lowDigit (s.getV x)))) := rfl
theorem exec_loadImm : exec (.loadImm x nn) s = .next (s.setV x nn) := rfl
theorem exec_addImm : exec (.addImm x nn) s = .next (s.setV x (s.getV x + nn)) := rfl
theorem exec_copy : exec (.copy x y) s = .next (s.setV x (s.getV y)) := rfl
theorem exec_orReg : exec (.orReg x y) s = .next (s.setV x (s.getV x ||| s.getV y)) := rfl
theorem exec_andReg : exec (.andReg x y) s = .next (s.setV x (s.getV x &&& s.getV y)) := rfl
theorem exec_xorReg : exec (.xorReg x y) s = .next (s.setV x (s.getV x ^^^ s.getV y)) := rfl
theorem exec_addReg : exec (.addReg x y) s =
    .next (s.setResultAndFlag x (s.getV x + s.getV y) (carryFlag (s.getV x) (s.getV y))) := rfl
theorem exec_sub : exec (.sub x y) s =
    .next (s.setResultAndFlag x (s.getV x - s.getV y) (noBorrowFlag (s.getV x) (s.getV y))) := rfl
theorem exec_shr : exec (.shr x y) s = .next (s.setResultAndFlag x (s.getV x >>> 1) (lowBitFlag (s.getV x))) := rfl
theorem exec_subn : exec (.subn x y) s =
    .next (s.setResultAndFlag x (s.getV y - s.getV x) (noBorrowFlag (s.getV y) (s.getV x))) := rfl
theorem exec_shl : exec (.shl x y) s = .next (s.setResultAndFlag x (s.getV x <<< 1) (highBitFlag (s.getV x))) := rfl
theorem exec_loadI : exec (.loadI nnn) s = .next (s.setI (addrWord nnn)) := rfl
theorem exec_addI : exec (.addI x) s = .next (s.setI (s.i + byteWord (s.getV x))) := rfl
theorem exec_font : exec (.font x) s = .next (s.setI (glyphAddr (lowDigit (s.getV x)))) := rfl
theorem exec_store : exec (.store x) s = .next (s.storeRegs (x.toNat + 1)) := rfl
theorem exec_restore : exec (.restore x) s = .next (s.restoreRegs (x.toNat + 1)) := rfl
theorem exec_bcd : exec (.bcd x) s =
    .next (((s.memWrite (s.indexed 0) (hundreds (s.getV x))).memWrite (s.indexed 1) (tens (s.getV x))).memWrite
      (s.indexed 2) (units (s.getV x))) := rfl
theorem exec_random : exec (.random x nn) s = .next (s.setV x (s.rnd &&& nn)) := rfl
theorem exec_draw : exec (.draw x y n) s =
    .next ((s.setFb (blit s.fb (s.drawPixels x y n)).1).setV vf (flagByte (blit s.fb (s.drawPixels x y n)).2)) := rfl
theorem exec_getDelay : exec (.getDelay x) s = .next (s.setV x s.dt) := rfl
theorem exec_setDelay : exec (.setDelay x) s = .next (s.setDt (s.getV x)) := rfl
theorem exec_setSound : exec (.setSound x) s = .next (s.setSt (s.getV x)) := rfl

theorem exec_waitKey_none {s : State} (h : s.keys = 0) : exec (.waitKey x) s = .next (s.setPc s.fetchAddr) := by
  show execWaitKey x s = _
  unfold execWaitKey; rw [if_pos h]

theorem exec_waitKey_some {s : State} (h : s.keys ≠ 0) :
    exec (.waitKey x) s = .next (s.setV x (BitVec.ofNat 8 (keySelect s.keys))) := by
  show execWaitKey x s = _
  unfold execWaitKey; rw [if_neg h]

end

/-! ## Operands and flags -/

/-- `KEY_SELECT` answers a pressed key (46_key_wait.md R201). -/
theorem keySelect_mem {keys : Word} (h : keys ≠ 0) : keySelect keys ∈ pressedKeys keys := by
  unfold keySelect
  have hne : pressedKeys keys ≠ [] := by
    intro hnil
    apply h
    ext k hk
    have := List.filter_eq_nil_iff.1 hnil k (by simp [hk])
    simpa [keyDown, BitVec.getLsbD_eq_getElem hk] using this
  cases hp : pressedKeys keys with
  | nil => exact absurd hp hne
  | cons k more =>
    cases more with
    | nil => simp
    | cons k' more =>
      have hlt : Config.keyChoice keys % ((k' :: more).length + 1) < (k :: k' :: more).length :=
        Nat.mod_lt _ (Nat.succ_pos _)
      show (k :: k' :: more).getD _ k ∈ _
      rw [List.getD_eq_getElem _ _ hlt]
      exact List.getElem_mem _

theorem keySelect_pressed {keys : Word} (h : keys ≠ 0) : keySelect keys < 16 ∧ keys.getLsbD (keySelect keys) = true := by
  have := keySelect_mem h
  simpa [pressedKeys, keyDown] using this

theorem setResultAndFlag_getV_vf (x : Nibble) (r f : Byte) : (s.setResultAndFlag x r f).getV vf = f := setV_getV_same _ _ _

theorem setResultAndFlag_getV_dest {x : Nibble} (r f : Byte) (h : x ≠ vf) : (s.setResultAndFlag x r f).getV x = r := by
  unfold State.setResultAndFlag; rw [setV_getV_other _ _ h, setV_getV_same]

theorem setResultAndFlag_getV_other {x q : Nibble} (r f : Byte) (hx : q ≠ x) (hv : q ≠ vf) :
    (s.setResultAndFlag x r f).getV q = s.getV q := by
  unfold State.setResultAndFlag; rw [setV_getV_other _ _ hv, setV_getV_other _ _ hx]

theorem flagByte_toNat (b : Bool) : (flagByte b).toNat = if b then 1 else 0 := by cases b <;> rfl

end Sys2Proof.Machine
end

