-- ==== Sys2Proof/Laws/Frames.lean ====
section
/-!
SUPPORT. Inversion: the ways in which an instruction with a choice, and the event Step, can lead to a next state, each said once; and
the frames of one-field updates, cited instead of unfolding a frame.
-/

namespace Sys2Proof.Machine

/-! ## Updates of one part of the state keep the rest -/

theorem keepsAllButMemory_mk (s : State) (m : Memory) : KeepsAllButMemory s { s with mem := m } :=
  ⟨fun _ => rfl, rfl, rfl, ⟨rfl, rfl⟩, ⟨rfl, rfl⟩, rfl, ⟨rfl, rfl⟩, ⟨rfl, rfl, rfl, rfl, rfl⟩, ⟨rfl, rfl⟩⟩

theorem keepsAllButRegs_mk (s : State) (v : Vector Byte 16) : KeepsAllButRegs s { s with v := v } :=
  ⟨rfl, rfl, fun _ => rfl, ⟨rfl, rfl⟩, ⟨rfl, rfl⟩, rfl, ⟨rfl, rfl⟩, ⟨rfl, rfl, rfl, rfl, rfl⟩, ⟨rfl, rfl⟩⟩

theorem keepsAllButPc_mk (s : State) (w : Word) : KeepsAllButPc s { s with pc := w } :=
  ⟨fun _ => rfl, rfl, fun _ => rfl, ⟨rfl, rfl⟩, ⟨rfl, rfl⟩, rfl, ⟨rfl, rfl⟩, ⟨rfl, rfl, rfl, rfl, rfl⟩, ⟨rfl, rfl⟩⟩

theorem keepsAllButI_mk (s : State) (w : Word) : KeepsAllButI s { s with i := w } :=
  ⟨fun _ => rfl, rfl, fun _ => rfl, ⟨rfl, rfl⟩, ⟨rfl, rfl⟩, rfl, ⟨rfl, rfl⟩, ⟨rfl, rfl, rfl, rfl, rfl⟩, ⟨rfl, rfl⟩⟩

theorem keepsAllButRunState_mk (s : State) (e : ErrorRecord) (m : Mode) :
    KeepsAllButRunState s { s with err := e, mode := m } :=
  ⟨fun _ => rfl, rfl, rfl, fun _ => rfl, ⟨rfl, rfl⟩, ⟨rfl, rfl⟩, rfl, ⟨rfl, rfl, rfl, rfl, rfl⟩, ⟨rfl, rfl⟩⟩

theorem keepsRegsBut_setV (s : State) (x : Nibble) (b : Byte) : KeepsRegsBut (· = x) s (s.setV x b) :=
  fun _ h => setV_getV_other _ _ h

theorem keepsRegsBut_setResultAndFlag (s : State) (x : Nibble) (r f : Byte) :
    KeepsRegsBut (fun q => q = x ∨ q = vf) s (s.setResultAndFlag x r f) := by
  intro q h
  rw [not_or] at h
  exact setResultAndFlag_getV_other _ _ _ h.1 h.2

theorem addrWord_toNat (nnn : Addr) : (addrWord nnn).toNat = nnn.toNat := by
  unfold addrWord; have := nnn.isLt; simp; omega

/-! ## The block transfers do not look at inputs and timers -/

theorem storeRegs_with_rnd (s : State) (b : Byte) (n : Nat) :
    State.storeRegs { s with rnd := b } n = { s.storeRegs n with rnd := b } := by
  induction n with
  | zero => rfl
  | succ n ih => simp only [State.storeRegs]; rw [ih]; rfl

theorem restoreRegs_with_rnd (s : State) (b : Byte) (n : Nat) :
    State.restoreRegs { s with rnd := b } n = { s.restoreRegs n with rnd := b } := by
  induction n with
  | zero => rfl
  | succ n ih => simp only [State.restoreRegs]; rw [ih]; rfl

theorem storeRegs_with_keys (s : State) (b : Word) (n : Nat) :
    State.storeRegs { s with keys := b } n = { s.storeRegs n with keys := b } := by
  induction n with
  | zero => rfl
  | succ n ih => simp only [State.storeRegs]; rw [ih]; rfl

theorem restoreRegs_with_keys (s : State) (b : Word) (n : Nat) :
    State.restoreRegs { s with keys := b } n = { s.restoreRegs n with keys := b } := by
  induction n with
  | zero => rfl
  | succ n ih => simp only [State.restoreRegs]; rw [ih]; rfl

theorem storeRegs_with_dt (s : State) (b : Byte) (n : Nat) :
    State.storeRegs { s with dt := b } n = { s.storeRegs n with dt := b } := by
  induction n with
  | zero => rfl
  | succ n ih => simp only [State.storeRegs]; rw [ih]; rfl

theorem restoreRegs_with_dt (s : State) (b : Byte) (n : Nat) :
    State.restoreRegs { s with dt := b } n = { s.restoreRegs n with dt := b } := by
  induction n with
  | zero => rfl
  | succ n ih => simp only [State.restoreRegs]; rw [ih]; rfl

theorem storeRegs_with_st (s : State) (b : Byte) (n : Nat) :
    State.storeRegs { s with st := b } n = { s.storeRegs n with st := b } := by
  induction n with
  | zero => rfl
  | succ n ih => simp only [State.storeRegs]; rw [ih]; rfl

theorem restoreRegs_with_st (s : State) (b : Byte) (n : Nat) :
    State.restoreRegs { s with st := b } n = { s.restoreRegs n with st := b } := by
  induction n with
  | zero => rfl
  | succ n ih => simp only [State.restoreRegs]; rw [ih]; rfl

/-! ## Inversion -/

variable {s t : State}

/-- CALL pushes and jumps, or takes StackOverflow. -/
theorem exec_call_cases {nnn : Addr} (h : exec (.call nnn) s = .next t) :
    (∃ hl : s.sp.val < 16, t = State.setPc
      { s with stack := s.stack.set s.sp.val s.pc hl, sp := ⟨s.sp.val + 1, Nat.succ_lt_succ hl⟩ } (addrWord nnn)) ∨
    (s.sp.val = 16 ∧ t = s.raise .stackOverflow (encode (.call nnn))) := by
  by_cases hl : s.sp.val = 16
  · rw [exec_call_full nnn hl] at h; cases h; exact .inr ⟨hl, rfl⟩
  · have : s.sp.val < 16 := by have := s.sp.isLt; omega
    rw [exec_call_of_lt nnn this] at h; cases h; exact .inl ⟨this, rfl⟩

/-- RETURN pops into PC, or takes StackUnderflow. -/
theorem exec_ret_cases (h : exec .ret s = .next t) :
    (∃ _ : 0 < s.sp.val, t = State.setPc { s with sp := ⟨s.sp.val - 1, by have := s.sp.isLt; omega⟩ }
      (s.stack[s.sp.val - 1]'(by have := s.sp.isLt; omega))) ∨
    (s.sp.val = 0 ∧ t = s.raise .stackUnderflow (encode .ret)) := by
  by_cases hl : s.sp.val = 0
  · rw [exec_ret_empty hl] at h; cases h; exact .inr ⟨hl, rfl⟩
  · rw [exec_ret_of_pos (by omega)] at h; cases h; exact .inl ⟨by omega, rfl⟩

/-- WAIT_KEY goes back to its own address, or writes the number of a key. -/
theorem exec_waitKey_cases {x : Nibble} (h : exec (.waitKey x) s = .next t) :
    (s.keys = 0 ∧ t = s.setPc s.fetchAddr) ∨ (s.keys ≠ 0 ∧ t = s.setV x (BitVec.ofNat 8 (keySelect s.keys))) := by
  by_cases hl : s.keys = 0
  · rw [exec_waitKey_none _ hl] at h; cases h; exact .inl ⟨hl, rfl⟩
  · rw [exec_waitKey_some _ hl] at h; cases h; exact .inr ⟨hl, rfl⟩

/-- A Step that leads to a next state is frozen by `paused`, or runs the decoded instruction, or meets an unknown word. -/
theorem stepEvent_cases {keys : Word} {rnd : Byte} (h : stepEvent keys rnd s = .next t) :
    (s.mode = .active ∧ s.paused = true ∧ t = s) ∨
    (s.enabled = true ∧ ∃ i, decode s.fetchWord = .ok i ∧ exec i (s.beginStep keys rnd) = .next t) ∨
    (s.enabled = true ∧ ∃ e, decode s.fetchWord = .error e ∧ t = (s.beginStep keys rnd).unknownOpcode s.fetchWord) := by
  cases hm : s.mode
  case active =>
    cases hp : s.paused
    · have he := (enabled_iff s).2 ⟨hm, hp⟩
      rw [stepEvent_enabled _ _ hm hp] at h
      cases hd : decode s.fetchWord with
      | ok i => rw [runInstruction_ok _ _ hd] at h; exact .inr (.inl ⟨he, i, rfl, h⟩)
      | error e => rw [runInstruction_error _ _ hd] at h; cases h; exact .inr (.inr ⟨he, e, rfl, rfl⟩)
    · rw [stepEvent_paused _ _ hm hp] at h; cases h; exact .inl ⟨rfl, rfl, rfl⟩
  all_goals unfold stepEvent at h; rw [hm] at h; cases h

/-! ## An unknown word, under either policy -/

variable (op : Word)

@[simp] theorem unknownOpcode_v : (s.unknownOpcode op).v = s.v := by unfold State.unknownOpcode; split <;> rfl
@[simp] theorem unknownOpcode_i : (s.unknownOpcode op).i = s.i := by unfold State.unknownOpcode; split <;> rfl
@[simp] theorem unknownOpcode_pc : (s.unknownOpcode op).pc = s.pc := by unfold State.unknownOpcode; split <;> rfl
@[simp] theorem unknownOpcode_stack : (s.unknownOpcode op).stack = s.stack := by unfold State.unknownOpcode; split <;> rfl
@[simp] theorem unknownOpcode_sp : (s.unknownOpcode op).sp = s.sp := by unfold State.unknownOpcode; split <;> rfl
@[simp] theorem unknownOpcode_dt : (s.unknownOpcode op).dt = s.dt := by unfold State.unknownOpcode; split <;> rfl
@[simp] theorem unknownOpcode_st : (s.unknownOpcode op).st = s.st := by unfold State.unknownOpcode; split <;> rfl
@[simp] theorem unknownOpcode_fb : (s.unknownOpcode op).fb = s.fb := by unfold State.unknownOpcode; split <;> rfl
@[simp] theorem unknownOpcode_mem : (s.unknownOpcode op).mem = s.mem := by unfold State.unknownOpcode; split <;> rfl
@[simp] theorem unknownOpcode_fbUpdated : (s.unknownOpcode op).fbUpdated = s.fbUpdated := by
  unfold State.unknownOpcode; split <;> rfl

end Sys2Proof.Machine
end

