-- ==== Sys2Proof/Laws/PerInstr.lean ====
section
/-!
SUPPORT. The family EncodeInRow, one lemma per constructor: an instruction's word is accepted by the instruction's row of the opcode
map (30_encoding.md R96).
-/

namespace Sys2Proof.Laws.EncodeInRow

def Statement (i : Instr) : Prop := i.row.accepts (encode i) = true

theorem clear : Statement .clear := rfl
theorem ret : Statement .ret := rfl
theorem jump (nnn : Addr) : Statement (.jump nnn) := by
  simp only [Statement, OpcodeRow.accepts, Instr.row, encode, and_F000]; simp; decide
theorem call (nnn : Addr) : Statement (.call nnn) := by
  simp only [Statement, OpcodeRow.accepts, Instr.row, encode, and_F000]; simp; decide
theorem skipEqImm (x : Nibble) (nn : Byte) : Statement (.skipEqImm x nn) := by
  simp only [Statement, OpcodeRow.accepts, Instr.row, encode, and_F000]; simp; decide
theorem skipNeImm (x : Nibble) (nn : Byte) : Statement (.skipNeImm x nn) := by
  simp only [Statement, OpcodeRow.accepts, Instr.row, encode, and_F000]; simp; decide
theorem skipEqReg (x : Nibble) (y : Nibble) : Statement (.skipEqReg x y) := by
  simp only [Statement, OpcodeRow.accepts, Instr.row, encode, and_F00F]; simp; decide
theorem loadImm (x : Nibble) (nn : Byte) : Statement (.loadImm x nn) := by
  simp only [Statement, OpcodeRow.accepts, Instr.row, encode, and_F000]; simp; decide
theorem addImm (x : Nibble) (nn : Byte) : Statement (.addImm x nn) := by
  simp only [Statement, OpcodeRow.accepts, Instr.row, encode, and_F000]; simp; decide
theorem copy (x : Nibble) (y : Nibble) : Statement (.copy x y) := by
  simp only [Statement, OpcodeRow.accepts, Instr.row, encode, and_F00F]; simp; decide
theorem orReg (x : Nibble) (y : Nibble) : Statement (.orReg x y) := by
  simp only [Statement, OpcodeRow.accepts, Instr.row, encode, and_F00F]; simp; decide
theorem andReg (x : Nibble) (y : Nibble) : Statement (.andReg x y) := by
  simp only [Statement, OpcodeRow.accepts, Instr.row, encode, and_F00F]; simp; decide
theorem xorReg (x : Nibble) (y : Nibble) : Statement (.xorReg x y) := by
  simp only [Statement, OpcodeRow.accepts, Instr.row, encode, and_F00F]; simp; decide
theorem addReg (x : Nibble) (y : Nibble) : Statement (.addReg x y) := by
  simp only [Statement, OpcodeRow.accepts, Instr.row, encode, and_F00F]; simp; decide
theorem sub (x : Nibble) (y : Nibble) : Statement (.sub x y) := by
  simp only [Statement, OpcodeRow.accepts, Instr.row, encode, and_F00F]; simp; decide
theorem shr (x : Nibble) (y : Nibble) : Statement (.shr x y) := by
  simp only [Statement, OpcodeRow.accepts, Instr.row, encode, and_F00F]; simp; decide
theorem subn (x : Nibble) (y : Nibble) : Statement (.subn x y) := by
  simp only [Statement, OpcodeRow.accepts, Instr.row, encode, and_F00F]; simp; decide
theorem shl (x : Nibble) (y : Nibble) : Statement (.shl x y) := by
  simp only [Statement, OpcodeRow.accepts, Instr.row, encode, and_F00F]; simp; decide
theorem skipNeReg (x : Nibble) (y : Nibble) : Statement (.skipNeReg x y) := by
  simp only [Statement, OpcodeRow.accepts, Instr.row, encode, and_F00F]; simp; decide
theorem loadI (nnn : Addr) : Statement (.loadI nnn) := by
  simp only [Statement, OpcodeRow.accepts, Instr.row, encode, and_F000]; simp; decide
theorem random (x : Nibble) (nn : Byte) : Statement (.random x nn) := by
  simp only [Statement, OpcodeRow.accepts, Instr.row, encode, and_F000]; simp; decide
theorem draw (x : Nibble) (y : Nibble) (n : Nibble) : Statement (.draw x y n) := by
  simp only [Statement, OpcodeRow.accepts, Instr.row, encode, and_F000]; simp; decide
theorem skipKey (x : Nibble) : Statement (.skipKey x) := by
  simp only [Statement, OpcodeRow.accepts, Instr.row, encode, and_F0FF]; simp; decide
theorem skipNotKey (x : Nibble) : Statement (.skipNotKey x) := by
  simp only [Statement, OpcodeRow.accepts, Instr.row, encode, and_F0FF]; simp; decide
theorem getDelay (x : Nibble) : Statement (.getDelay x) := by
  simp only [Statement, OpcodeRow.accepts, Instr.row, encode, and_F0FF]; simp; decide
theorem waitKey (x : Nibble) : Statement (.waitKey x) := by
  simp only [Statement, OpcodeRow.accepts, Instr.row, encode, and_F0FF]; simp; decide
theorem setDelay (x : Nibble) : Statement (.setDelay x) := by
  simp only [Statement, OpcodeRow.accepts, Instr.row, encode, and_F0FF]; simp; decide
theorem setSound (x : Nibble) : Statement (.setSound x) := by
  simp only [Statement, OpcodeRow.accepts, Instr.row, encode, and_F0FF]; simp; decide
theorem addI (x : Nibble) : Statement (.addI x) := by
  simp only [Statement, OpcodeRow.accepts, Instr.row, encode, and_F0FF]; simp; decide
theorem font (x : Nibble) : Statement (.font x) := by
  simp only [Statement, OpcodeRow.accepts, Instr.row, encode, and_F0FF]; simp; decide
theorem bcd (x : Nibble) : Statement (.bcd x) := by
  simp only [Statement, OpcodeRow.accepts, Instr.row, encode, and_F0FF]; simp; decide
theorem store (x : Nibble) : Statement (.store x) := by
  simp only [Statement, OpcodeRow.accepts, Instr.row, encode, and_F0FF]; simp; decide
theorem restore (x : Nibble) : Statement (.restore x) := by
  simp only [Statement, OpcodeRow.accepts, Instr.row, encode, and_F0FF]; simp; decide

end Sys2Proof.Laws.EncodeInRow
end

