-- ==== Sys2Proof/Machine/Assembly.lean ====
section
/-!
DEFINITION. The assembler syntax (30_encoding.md R100, R101; the spec's decision D25): how an instruction is written, and how a program
becomes a ROM image. Nothing in the machine depends on it.
-/

namespace Sys2Proof.Machine

/-- The last hexadecimal digit of a number. -/
def hexDigit (k : Nat) : Char :=
  ['0', '1', '2', '3', '4', '5', '6', '7', '8', '9', 'A', 'B', 'C', 'D', 'E', 'F'].getD (k % 16) '0'

/-- A number in `count` hexadecimal digits. -/
def hexDigits : Nat → Nat → List Char
  | 0, _ => []
  | count + 1, k => hexDigits count (k / 16) ++ [hexDigit k]

/-- A register is `V0` to `VF`. -/
def regText (x : Nibble) : String := String.ofList ['V', hexDigit x.toNat]

/-- An immediate is `0x` and hexadecimal digits. -/
def immText (count k : Nat) : String := String.ofList (['0', 'x'] ++ hexDigits count k)

/-- The `y` field of a shift is written only where it is not 0. -/
def shiftText (name : String) (x y : Nibble) : String :=
  if y = 0 then name ++ " " ++ regText x else name ++ " " ++ regText x ++ ", " ++ regText y

/-- `NAME Vx, Vy`. -/
def pairText (name : String) (x y : Nibble) : String := name ++ " " ++ regText x ++ ", " ++ regText y

/-- `NAME Vx, nn`. -/
def regImmText (name : String) (x : Nibble) (nn : Byte) : String := name ++ " " ++ regText x ++ ", " ++ immText 2 nn.toNat

/-- The line that stands for an instruction, as the table of R100 writes it. -/
def instrText : Instr → String
  | .clear => "CLEAR"
  | .ret => "RETURN"
  | .jump nnn => "JUMP " ++ immText 3 nnn.toNat
  | .call nnn => "CALL " ++ immText 3 nnn.toNat
  | .skipEqImm x nn => regImmText "SKIP_EQ" x nn
  | .skipNeImm x nn => regImmText "SKIP_NE" x nn
  | .skipEqReg x y => pairText "SKIP_EQ" x y
  | .loadImm x nn => regImmText "LOAD" x nn
  | .addImm x nn => regImmText "ADD" x nn
  | .copy x y => pairText "COPY" x y
  | .orReg x y => pairText "OR" x y
  | .andReg x y => pairText "AND" x y
  | .xorReg x y => pairText "XOR" x y
  | .addReg x y => pairText "ADD" x y
  | .sub x y => pairText "SUB" x y
  | .shr x y => shiftText "SHR" x y
  | .subn x y => pairText "SUBN" x y
  | .shl x y => shiftText "SHL" x y
  | .skipNeReg x y => pairText "SKIP_NE" x y
  | .loadI nnn => "LOAD I, " ++ immText 3 nnn.toNat
  | .random x nn => regImmText "RANDOM" x nn
  | .draw x y n => pairText "DRAW" x y ++ ", " ++ immText 1 n.toNat
  | .skipKey x => "SKIP_KEY " ++ regText x
  | .skipNotKey x => "SKIP_NOT_KEY " ++ regText x
  | .getDelay x => "GET_DELAY " ++ regText x
  | .waitKey x => "WAIT_KEY " ++ regText x
  | .setDelay x => "SET_DELAY " ++ regText x
  | .setSound x => "SET_SOUND " ++ regText x
  | .addI x => "ADD I, " ++ regText x
  | .font x => "FONT " ++ regText x
  | .bcd x => "BCD " ++ regText x
  | .store x => "STORE " ++ regText x
  | .restore x => "RESTORE " ++ regText x

/-- One line of a program with its labels resolved: an instruction, or the directive `DB` (R101). -/
inductive AsmLine where
  | instr (i : Instr)
  | db (bytes : List Byte)
  deriving DecidableEq, Repr

/-- The bytes of a line: an instruction's word with its most significant byte first (R90), or the bytes given. -/
def lineBytes : AsmLine → List Byte
  | .instr i => bytesOfTableWord 16 (encode i).toNat
  | .db bytes => bytes

/-- The ROM image of a program, which Load places from 0x200 upward (R101). -/
def assemble (lines : List AsmLine) : List Byte := lines.flatMap lineBytes

end Sys2Proof.Machine
end

