-- ==== Sys2Proof/Tests/Slice0.lean ====
section
/-!
SUPPORT. Tests on fixed values. Every expected value is the spec's: the decode table and the vectors of 95_test_vectors.md, whose
number stands in the test's name or comment. At the end, for each statement with hypotheses, values that meet all of them.
-/

namespace Sys2Proof.Tests

set_option exponentiation.threshold 2048

open Sys2Proof.Machine

/-- The state with bytes from its PC on. -/
def withCode (bytes : List Byte) (s : State) : State := State.placeBytes s.pc bytes s

/-- The state with one byte of memory set. -/
def withByte (a : Word) (b : Byte) (s : State) : State := s.memWrite a b

/-- The state with general registers set. -/
def withRegs (values : List (Nibble × Byte)) (s : State) : State := values.foldl (fun t c => t.setV c.1 c.2) s

/-- The event Step leads to a next state with the property. -/
def stepMeets (keys : Word) (rnd : Byte) (s : State) (p : State → Bool) : Bool :=
  match stepEvent keys rnd s with
  | .next t => p t
  | .fault _ => false
  | .refused _ => false

/-- The Step on two bytes at PC, with no key pressed and 0x00 drawn. -/
def runs (hi lo : Byte) (s : State) (p : State → Bool) : Bool := stepMeets 0 0 (withCode [hi, lo] s) p

/-- After Load (95_test_vectors.md, conventions). -/
def loaded : State := State.reset

/-! ## WellFormed: each class of ill-formed word (30_encoding.md R97) and a ROM that is too long (R254) -/

/-- R97 (a). -/
theorem test_wellFormed_refuses_system : [0x0000, 0x00E1, 0x00FE, 0x0123].any wellFormedWord = false := by decide

/-- R97 (b). -/
theorem test_wellFormed_refuses_skipReg : [0x5AB1, 0x9AB5].any wellFormedWord = false := by decide

/-- R97 (c). -/
theorem test_wellFormed_refuses_alu : [0x8AB8, 0x8ABD, 0x8ABF].any wellFormedWord = false := by decide

/-- R97 (d). -/
theorem test_wellFormed_refuses_b : [0xB123].any wellFormedWord = false := by decide

/-- R97 (e). -/
theorem test_wellFormed_refuses_key : [0xE39F, 0xE0A2, 0xE000].any wellFormedWord = false := by decide

/-- R97 (f). -/
theorem test_wellFormed_refuses_misc : [0xF000, 0xFA34, 0xF975, 0xFFFF].any wellFormedWord = false := by decide

/-- R254, R253: 3585 bytes are too many, 3584 are not. -/
theorem test_wellFormed_rom : wellFormedRom (List.replicate 3585 0) = false ∧ wellFormedRom (List.replicate 3584 0) = true := by
  simp only [wellFormedRom, List.length_replicate]; decide

/-- Every word of the decode table is well formed. -/
theorem test_wellFormed_accepts : [0x00E0, 0x00EE, 0x1234, 0x8FFE, 0xD000, 0xEFA1, 0xF965].all wellFormedWord = true := by decide

/-! ## Decoding: the words of 95_test_vectors.md 2.1, and one of R96's pattern for each row that table leaves out -/

theorem test_decode_clear : decode 0x00E0 = .ok (.clear) ∧ decodeTableWord 16 0x00E0 = some (.clear) := by decide
theorem test_decode_ret : decode 0x00EE = .ok (.ret) ∧ decodeTableWord 16 0x00EE = some (.ret) := by decide
theorem test_decode_jump : decode 0x1234 = .ok (.jump 0x234) ∧ decodeTableWord 16 0x1234 = some (.jump 0x234) := by decide
theorem test_decode_call : decode 0x2FFF = .ok (.call 0xFFF) ∧ decodeTableWord 16 0x2FFF = some (.call 0xFFF) := by decide
theorem test_decode_skipEqImm : decode 0x3A10 = .ok (.skipEqImm 0xA 0x10) ∧ decodeTableWord 16 0x3A10 = some (.skipEqImm 0xA 0x10) := by decide
theorem test_decode_skipNeImm : decode 0x4F00 = .ok (.skipNeImm 0xF 0x00) ∧ decodeTableWord 16 0x4F00 = some (.skipNeImm 0xF 0x00) := by decide
theorem test_decode_skipEqReg : decode 0x5AB0 = .ok (.skipEqReg 0xA 0xB) ∧ decodeTableWord 16 0x5AB0 = some (.skipEqReg 0xA 0xB) := by decide
theorem test_decode_loadImm : decode 0x6F42 = .ok (.loadImm 0xF 0x42) ∧ decodeTableWord 16 0x6F42 = some (.loadImm 0xF 0x42) := by decide
theorem test_decode_addImm : decode 0x70FF = .ok (.addImm 0x0 0xFF) ∧ decodeTableWord 16 0x70FF = some (.addImm 0x0 0xFF) := by decide
theorem test_decode_copy : decode 0x8120 = .ok (.copy 0x1 0x2) ∧ decodeTableWord 16 0x8120 = some (.copy 0x1 0x2) := by decide
theorem test_decode_orReg : decode 0x8AB1 = .ok (.orReg 0xA 0xB) ∧ decodeTableWord 16 0x8AB1 = some (.orReg 0xA 0xB) := by decide
theorem test_decode_andReg : decode 0x8AB2 = .ok (.andReg 0xA 0xB) ∧ decodeTableWord 16 0x8AB2 = some (.andReg 0xA 0xB) := by decide
theorem test_decode_xorReg : decode 0x8AB3 = .ok (.xorReg 0xA 0xB) ∧ decodeTableWord 16 0x8AB3 = some (.xorReg 0xA 0xB) := by decide
theorem test_decode_addReg : decode 0x8AB4 = .ok (.addReg 0xA 0xB) ∧ decodeTableWord 16 0x8AB4 = some (.addReg 0xA 0xB) := by decide
theorem test_decode_sub : decode 0x8AB5 = .ok (.sub 0xA 0xB) ∧ decodeTableWord 16 0x8AB5 = some (.sub 0xA 0xB) := by decide
theorem test_decode_shr : decode 0x8AB6 = .ok (.shr 0xA 0xB) ∧ decodeTableWord 16 0x8AB6 = some (.shr 0xA 0xB) := by decide
theorem test_decode_subn : decode 0x8AB7 = .ok (.subn 0xA 0xB) ∧ decodeTableWord 16 0x8AB7 = some (.subn 0xA 0xB) := by decide
theorem test_decode_shl : decode 0x8ABE = .ok (.shl 0xA 0xB) ∧ decodeTableWord 16 0x8ABE = some (.shl 0xA 0xB) := by decide
theorem test_decode_skipNeReg : decode 0x9120 = .ok (.skipNeReg 0x1 0x2) ∧ decodeTableWord 16 0x9120 = some (.skipNeReg 0x1 0x2) := by decide
theorem test_decode_loadI : decode 0xA123 = .ok (.loadI 0x123) ∧ decodeTableWord 16 0xA123 = some (.loadI 0x123) := by decide
theorem test_decode_random : decode 0xC1FF = .ok (.random 0x1 0xFF) ∧ decodeTableWord 16 0xC1FF = some (.random 0x1 0xFF) := by decide
theorem test_decode_draw : decode 0xD12F = .ok (.draw 0x1 0x2 0xF) ∧ decodeTableWord 16 0xD12F = some (.draw 0x1 0x2 0xF) := by decide
theorem test_decode_skipKey : decode 0xE39E = .ok (.skipKey 0x3) ∧ decodeTableWord 16 0xE39E = some (.skipKey 0x3) := by decide
theorem test_decode_skipNotKey : decode 0xEFA1 = .ok (.skipNotKey 0xF) ∧ decodeTableWord 16 0xEFA1 = some (.skipNotKey 0xF) := by decide
theorem test_decode_getDelay : decode 0xF507 = .ok (.getDelay 0x5) ∧ decodeTableWord 16 0xF507 = some (.getDelay 0x5) := by decide
theorem test_decode_waitKey : decode 0xF10A = .ok (.waitKey 0x1) ∧ decodeTableWord 16 0xF10A = some (.waitKey 0x1) := by decide
theorem test_decode_setDelay : decode 0xF215 = .ok (.setDelay 0x2) ∧ decodeTableWord 16 0xF215 = some (.setDelay 0x2) := by decide
theorem test_decode_setSound : decode 0xF318 = .ok (.setSound 0x3) ∧ decodeTableWord 16 0xF318 = some (.setSound 0x3) := by decide
theorem test_decode_addI : decode 0xF41E = .ok (.addI 0x4) ∧ decodeTableWord 16 0xF41E = some (.addI 0x4) := by decide
theorem test_decode_font : decode 0xF529 = .ok (.font 0x5) ∧ decodeTableWord 16 0xF529 = some (.font 0x5) := by decide
theorem test_decode_bcd : decode 0xF633 = .ok (.bcd 0x6) ∧ decodeTableWord 16 0xF633 = some (.bcd 0x6) := by decide
theorem test_decode_store : decode 0xF755 = .ok (.store 0x7) ∧ decodeTableWord 16 0xF755 = some (.store 0x7) := by decide
theorem test_decode_restore : decode 0xF965 = .ok (.restore 0x9) ∧ decodeTableWord 16 0xF965 = some (.restore 0x9) := by decide

/-- Eight unknown words of the table, each with its class. -/
theorem test_decode_unknown :
    decode 0x0000 = .error (.unknownSystem 0x0000) ∧ decode 0x00E1 = .error (.unknownSystem 0x00E1) ∧
    decode 0x5AB1 = .error (.unknownSkipReg 0x5AB1) ∧ decode 0x8AB8 = .error (.unknownAlu 0x8AB8) ∧
    decode 0x9AB5 = .error (.unknownSkipReg 0x9AB5) ∧ decode 0xB123 = .error (.unknownB 0xB123) ∧
    decode 0xE39F = .error (.unknownKey 0xE39F) ∧ decode 0xFA34 = .error (.unknownMisc 0xFA34) := by decide

/-- R90, R65: two bytes, the first the high one, and the rest is left; fewer than two are refused by name. -/
theorem test_decodeBytes :
    decodeBytes [0x12, 0x34, 0x56] = .ok (.jump 0x234, [0x56]) ∧ decodeBytes [0x12] = .error .truncated ∧
    decodeBytes [] = .error .truncated := by decide

/-! ## Fetch and load -/

theorem test_F1_fetch_bigEndian : runs 0x12 0x34 (loaded) (fun t => t.pc == 0x0234) = true := by decide
theorem test_F2_fetch_wraps :
    runs 0x60 0xF0 ({ loaded with pc := 0x0FFF })
      (fun t => t.getV 0x0 == 0xF0 && t.pc == 0x1001) = true := by decide
theorem test_F3_fetch_address_mod_4096 :
    runs 0x6A 0x42 ({ loaded with pc := 0x1200 })
      (fun t => t.getV 0xA == 0x42 && t.pc == 0x1202) = true := by decide

/-- L1, L5: after Load of 12 00 on a halted machine with a full stack. -/
theorem test_L5_load :
    (match loadEvent [0x12, 0x00] (withByte 0 0xBB { loaded with mode := .halted, sp := 16 }) with
      | .next t => t.mode == .active && t.err == noError && t.sp == 0 && t.memRead 0 == 0xF0 && t.pc == 0x0200 &&
          t.memRead 0x200 == 0x12 && t.mem == [(0x200, 0x12)]
      | _ => false) = true := by decide

/-- L4: 3585 bytes are refused. -/
theorem test_L4_load : loadEvent (List.replicate 3585 1) loaded = .refused (.romTooLarge 3585) := by
  unfold loadEvent
  rw [load_error (by rw [List.length_replicate]; decide), List.length_replicate]

/-- The font at 0x000 to 0x04F (R68): first and last glyph, and zero after it. -/
theorem test_font_bytes :
    [0x00, 0x01, 0x04, 0x4B, 0x4C, 0x4F, 0x50, 0xFFF].map loaded.mem.read = [0xF0, 0x90, 0xF0, 0xF0, 0x80, 0x80, 0x00, 0x00] ∧
    fontTable.length = 80 := by decide

/-- A write keeps the canonical form: equal memories are equal lists, and the reset contents are not listed. -/
theorem test_memory_canonical :
    Memory.write (Memory.write [] 0x300 1) 0x200 2 = Memory.write (Memory.write [] 0x200 2) 0x300 1 ∧
    Memory.write (Memory.write [] 0 0xBB) 0 0xF0 = [] ∧ Memory.wf (Memory.write (Memory.write [] 0x300 1) 0x200 2) = true ∧
    Memory.wf [(0x300, 1), (0x200, 2)] = false ∧ Memory.wf [(0x300, 0)] = false ∧ Memory.wf [(0x1000, 1)] = false := by decide

/-! ## Control flow (2.2) -/

theorem test_T1_clear :
    runs 0x00 0xE0 ({ loaded with fb := 1 ||| (1 <<< 63) ||| (1 <<< 2047) })
      (fun t => t.fb == 0 && t.fbUpdated && t.pc == 0x0202) = true := by decide
theorem test_T2_ret :
    runs 0x00 0xEE ({ loaded with pc := 0x0300, sp := 1, stack := (Vector.replicate 16 0).set 0 0x0202 })
      (fun t => t.sp == 0 && t.pc == 0x0202) = true := by decide
theorem test_T3_ret_empty :
    runs 0x00 0xEE (loaded)
      (fun t => t.mode == .halted && t.err == ⟨.stackUnderflow, 0x0200, 0x00EE⟩ && t.pc == 0x0202) = true := by decide
theorem test_T5_jump : runs 0x1A 0xBC (loaded) (fun t => t.pc == 0x0ABC) = true := by decide
theorem test_T6_jump_self : runs 0x12 0x00 (loaded) (fun t => t.pc == 0x0200) = true := by decide
theorem test_T11_call :
    runs 0x23 0x00 ({ loaded with pc := 0x0FFE })
      (fun t => t.sp == 1 && t.stack[0] == 0x1000 && t.pc == 0x0300) = true := by decide
theorem test_T10_call_full :
    runs 0x23 0x00 ({ loaded with sp := 16 })
      (fun t => t.mode == .halted && t.err == ⟨.stackOverflow, 0x0200, 0x2300⟩ && t.pc == 0x0202 && t.sp == 16) = true := by decide
theorem test_T13_skipEqImm : runs 0x3A 0x10 (withRegs [(0xA, 0x11)] loaded) (fun t => t.pc == 0x0202) = true := by decide
theorem test_T14_skipNeImm : runs 0x4A 0x10 (withRegs [(0xA, 0x10)] loaded) (fun t => t.pc == 0x0202) = true := by decide
theorem test_T15_skipNeImm : runs 0x4A 0x10 (withRegs [(0xA, 0x11)] loaded) (fun t => t.pc == 0x0204) = true := by decide
theorem test_T16_skipEqReg :
    runs 0x5A 0xB0 (withRegs [(0xA, 0x07), (0xB, 0x07)] loaded)
      (fun t => t.pc == 0x0204) = true := by decide
theorem test_T17_skipEqReg :
    runs 0x5A 0xB0 (withRegs [(0xA, 0x07), (0xB, 0x08)] loaded)
      (fun t => t.pc == 0x0202) = true := by decide
theorem test_T19_skipNeReg :
    runs 0x9A 0xB0 (withRegs [(0xA, 0x01), (0xB, 0x02)] loaded)
      (fun t => t.pc == 0x0204) = true := by decide
theorem test_T20_skipNeReg :
    runs 0x9A 0xB0 (withRegs [(0xA, 0x02), (0xB, 0x02)] loaded)
      (fun t => t.pc == 0x0202) = true := by decide

/-- The Step on two bytes at PC with the given keys. -/
def runsWithKeys (keys : Word) (hi lo : Byte) (s : State) (p : State → Bool) : Bool := stepMeets keys 0 (withCode [hi, lo] s) p

theorem test_T24_skipKey : runsWithKeys 0x0020 0xE3 0x9E (withRegs [(0x3, 0x15)] loaded) (fun t => t.pc == 0x0204) = true := by decide
theorem test_T25_skipKey : runsWithKeys 0xFFDF 0xE3 0x9E (withRegs [(0x3, 0x05)] loaded) (fun t => t.pc == 0x0202) = true := by decide
theorem test_T26_skipNotKey : runsWithKeys 0x0020 0xE3 0xA1 (withRegs [(0x3, 0x05)] loaded) (fun t => t.pc == 0x0202) = true := by decide
theorem test_T27_skipNotKey : runsWithKeys 0x0000 0xE3 0xA1 (withRegs [(0x3, 0x05)] loaded) (fun t => t.pc == 0x0204) = true := by decide
theorem test_T28_skip_wraps : runs 0x30 0x00 ({ loaded with pc := 0xFFFC }) (fun t => t.pc == 0x0000) = true := by decide

/-! ## Arithmetic (2.3) -/

theorem test_T41_loadImm : runs 0x6F 0x42 (loaded) (fun t => t.getV 0xF == 0x42 && t.pc == 0x0202) = true := by decide
theorem test_T42_addImm :
    runs 0x7A 0x01 (withRegs [(0xA, 0xFF), (0xF, 0x55)] loaded)
      (fun t => t.getV 0xA == 0x00 && t.getV 0xF == 0x55) = true := by decide
theorem test_T44_addImm : runs 0x7F 0x01 (withRegs [(0xF, 0xFF)] loaded) (fun t => t.getV 0xF == 0x00) = true := by decide
theorem test_T45_copy :
    runs 0x8A 0xB0 (withRegs [(0xB, 0x37)] loaded)
      (fun t => t.getV 0xA == 0x37 && t.getV 0xB == 0x37) = true := by decide
theorem test_T47_orReg :
    runs 0x8A 0xB1 (withRegs [(0xA, 0xF0), (0xB, 0x0F), (0xF, 0x77)] loaded)
      (fun t => t.getV 0xA == 0xFF && t.getV 0xF == 0x77) = true := by decide
theorem test_T48_andReg :
    runs 0x8A 0xB2 (withRegs [(0xA, 0xF0), (0xB, 0x3C), (0xF, 0x77)] loaded)
      (fun t => t.getV 0xA == 0x30 && t.getV 0xF == 0x77) = true := by decide
theorem test_T49_xorReg :
    runs 0x8A 0xB3 (withRegs [(0xA, 0xF0), (0xB, 0x3C), (0xF, 0x77)] loaded)
      (fun t => t.getV 0xA == 0xCC && t.getV 0xF == 0x77) = true := by decide
theorem test_T53_addReg :
    runs 0x8A 0xB4 (withRegs [(0xA, 0xFF), (0xB, 0xFF)] loaded)
      (fun t => t.getV 0xA == 0xFE && t.getV 0xF == 0x01) = true := by decide
theorem test_T55_addReg_vf :
    runs 0x8F 0xA4 (withRegs [(0xF, 0x01), (0xA, 0x02)] loaded)
      (fun t => t.getV 0xF == 0x00 && t.getV 0xA == 0x02) = true := by decide
theorem test_T67_sub_vf :
    runs 0x8A 0xF5 (withRegs [(0xA, 0x00), (0xF, 0x01)] loaded)
      (fun t => t.getV 0xA == 0xFF && t.getV 0xF == 0x00) = true := by decide
theorem test_T62_sub_equal :
    runs 0x8A 0xB5 (withRegs [(0xA, 0x05), (0xB, 0x05)] loaded)
      (fun t => t.getV 0xA == 0x00 && t.getV 0xF == 0x01) = true := by decide
theorem test_T68_shr :
    runs 0x8A 0xB6 (withRegs [(0xA, 0x05), (0xB, 0xFF)] loaded)
      (fun t => t.getV 0xA == 0x02 && t.getV 0xF == 0x01 && t.getV 0xB == 0xFF) = true := by decide
theorem test_T72_shr_vf : runs 0x8F 0x06 (withRegs [(0xF, 0x03)] loaded) (fun t => t.getV 0xF == 0x01) = true := by decide
theorem test_T75_subn :
    runs 0x8A 0xB7 (withRegs [(0xA, 0x02), (0xB, 0x01), (0xF, 0x01)] loaded)
      (fun t => t.getV 0xA == 0xFF && t.getV 0xF == 0x00) = true := by decide
theorem test_T76_subn_equal :
    runs 0x8A 0xB7 (withRegs [(0xA, 0x09), (0xB, 0x09)] loaded)
      (fun t => t.getV 0xA == 0x00 && t.getV 0xF == 0x01) = true := by decide
theorem test_T78_shl :
    runs 0x8A 0xBE (withRegs [(0xA, 0x81), (0xB, 0xFF)] loaded)
      (fun t => t.getV 0xA == 0x02 && t.getV 0xF == 0x01) = true := by decide
theorem test_T82_shl_vf : runs 0x8F 0x0E (withRegs [(0xF, 0x7F)] loaded) (fun t => t.getV 0xF == 0x00) = true := by decide

/-! ## Memory and index (2.4) -/

theorem test_T101_loadI :
    runs 0xAF 0xFF ({ loaded with i := 0x1234 })
      (fun t => t.i == 0x0FFF && t.pc == 0x0202) = true := by decide
theorem test_T103_addI :
    runs 0xFA 0x1E (withRegs [(0xA, 0x01), (0xF, 0x55)] { loaded with i := 0x0FFF })
      (fun t => t.i == 0x1000 && t.getV 0xF == 0x55) = true := by decide
theorem test_T104_addI :
    runs 0xFA 0x1E (withRegs [(0xA, 0x02)] { loaded with i := 0xFFFF })
      (fun t => t.i == 0x0001) = true := by decide
theorem test_T106_font :
    runs 0xFA 0x29 (withRegs [(0xA, 0x07)] { loaded with i := 0x0999 })
      (fun t => t.i == 0x0023) = true := by decide
theorem test_T109_font : runs 0xFA 0x29 (withRegs [(0xA, 0x1A)] loaded) (fun t => t.i == 0x0032) = true := by decide
theorem test_T110_store :
    runs 0xF2 0x55 (withRegs [(0x0, 0x01), (0x1, 0x02), (0x2, 0x03), (0x3, 0x04)] { loaded with i := 0x0300 })
      (fun t => t.memRead 0x300 == 1 && t.memRead 0x301 == 2 && t.memRead 0x302 == 3 && t.memRead 0x303 == 0 && t.i == 0x0300) = true := by decide
theorem test_T113_store_wraps :
    runs 0xF1 0x55 (withRegs [(0x0, 0xAA), (0x1, 0xBB)] { loaded with i := 0x0FFF })
      (fun t => t.memRead 0x000 == 0xBB && t.memRead 0xFFF == 0xAA) = true := by decide
theorem test_T116_restore :
    runs 0xF2 0x65 (withByte 0x300 2 (withByte 0x301 5 (withByte 0x302 4 (withByte 0x303 7 (withRegs [(0x3, 0x99)] { loaded with i := 0x0300 })))))
      (fun t => t.getV 0 == 2 && t.getV 1 == 5 && t.getV 2 == 4 && t.getV 3 == 0x99 && t.i == 0x0300) = true := by decide
theorem test_T119_restore_wraps :
    runs 0xF1 0x65 (withByte 0xFFF 0x77 ({ loaded with i := 0x0FFF }))
      (fun t => t.getV 0 == 0x77 && t.getV 1 == 0xF0) = true := by decide
theorem test_T120_bcd :
    runs 0xFA 0x33 (withRegs [(0xA, 0xFE)] { loaded with i := 0x0300 })
      (fun t => t.memRead 0x300 == 2 && t.memRead 0x301 == 5 && t.memRead 0x302 == 4 && t.i == 0x0300) = true := by decide
theorem test_T125_bcd_wraps :
    runs 0xFA 0x33 (withRegs [(0xA, 0x7B)] { loaded with i := 0x0FFE })
      (fun t => t.memRead 0xFFE == 1 && t.memRead 0xFFF == 2 && t.memRead 0x000 == 3) = true := by decide

/-! ## Random, display, timers, key wait (2.5 to 2.8) -/

theorem test_T140_random : stepMeets 0 0xA7 (withCode [0xCA, 0x0F] (loaded.setV 0xA 0xFF)) (fun t => t.getV 0xA == 0x07) = true := by decide
theorem test_T152_draw :
    runs 0xDF 0xF1 (withByte 0x300 0x80 (withRegs [(0xF, 0x45)] { loaded with i := 0x0300 }))
      (fun t => t.getV 0xF == 0 && t.fb == 1 <<< 325 && t.fbUpdated) = true := by decide
theorem test_T153_draw_collision :
    runs 0xD0 0x11 (withByte 0x300 0xC0 ({ loaded with i := 0x0300, fb := 1 }))
      (fun t => t.getV 0xF == 1 && t.fb == 2) = true := by decide
theorem test_T170_getDelay :
    runs 0xF5 0x07 ({ loaded with dt := 0x2A })
      (fun t => t.getV 0x5 == 0x2A && t.dt == 0x2A) = true := by decide
theorem test_T171_setDelay :
    runs 0xF5 0x15 (withRegs [(0x5, 0x10)] loaded)
      (fun t => t.dt == 0x10 && t.st == 0) = true := by decide
theorem test_T172_setSound :
    runs 0xF5 0x18 (withRegs [(0x5, 0x03)] loaded)
      (fun t => t.st == 0x03 && t.sound && t.dt == 0) = true := by decide
theorem test_T173_setSound : runs 0xF5 0x18 ({ loaded with st := 0x09 }) (fun t => t.st == 0x00 && !t.sound) = true := by decide
theorem test_T175_tick : State.tick { loaded with dt := 0x01, st := 0x03 } = { loaded with dt := 0x00, st := 0x02 } := by decide
theorem test_T174_tick_at_zero : State.tick loaded = loaded := by decide
theorem test_T190_waitKey : runsWithKeys 0x0000 0xF3 0x0A (withRegs [(0x3, 0x77)] loaded) (fun t => t.pc == 0x0200 && t.getV 0x3 == 0x77) = true := by decide
theorem test_T193_waitKey : runsWithKeys 0x0100 0xFF 0x0A (loaded) (fun t => t.getV 0xF == 0x08 && t.pc == 0x0202) = true := by decide

/-! ## Unknown words, pause (2.9, 2.10) -/

theorem test_T225_unknown_halts :
    runs 0xF9 0x75 ({ loaded with dt := 0x09 })
      (fun t => t.mode == .halted && t.err == ⟨.unknownOpcode, 0x0200, 0xF975⟩ && t.pc == 0x0202 && t.dt == 9 && t.tick == t) = true := by decide
theorem test_T225_unknown_skipped :
    runs 0xF9 0x75 ({ loaded with policy := .skip })
      (fun t => t.mode == .active && t.err == noError && t.report == some ⟨.unknownOpcode, 0x0200, 0xF975⟩ && t.pc == 0x0202) = true := by decide
theorem test_Z1_paused : State.tick { loaded with dt := 5, paused := true } = { loaded with dt := 5, paused := true } := by decide

/-- R210: the codes of the errors. -/
theorem test_error_codes :
    [ErrKind.none, .unknownOpcode, .stackOverflow, .stackUnderflow, .romTooLarge].map ErrKind.code = [0, 1, 2, 3, 4] := by decide

/-- R202: awaiting a key, only while none is pressed. -/
theorem test_awaitingKey :
    (withCode [0xF3, 0x0A] loaded).awaitingKey 0 = true ∧ (withCode [0xF3, 0x0A] loaded).awaitingKey 1 = false ∧
    loaded.awaitingKey 0 = false := by decide

/-! ## Assembler syntax -/

/-- The three spellings of the source, and one line with every kind of operand (R100). -/
theorem test_instrText :
    instrText (.call 0x300) = "CALL 0x300" ∧ instrText .ret = "RETURN" ∧ instrText (.skipEqImm 0xA 0x10) = "SKIP_EQ VA, 0x10" ∧
    instrText (.draw 1 2 5) = "DRAW V1, V2, 0x5" ∧ instrText (.shr 0xA 0) = "SHR VA" := by decide

/-- Program P2 of 95_test_vectors.md, with a sprite's bytes after it. -/
theorem test_P2_assemble :
    assemble [.instr (.loadImm 0 0xFE), .instr (.loadI 0x300), .instr (.call 0x20A), .instr (.restore 2), .instr (.jump 0x208),
      .instr (.bcd 0), .instr .ret, .db [0xC0]] =
    [0x60, 0xFE, 0xA3, 0x00, 0x22, 0x0A, 0xF2, 0x65, 0x12, 0x08, 0xF0, 0x33, 0x00, 0xEE, 0xC0] := by decide


/-! ## Values that meet the hypotheses of the statements -/

/-- A word at PC on the machine after Load. -/
def atPc (w : Word) : State := loaded.withFetchWord 16 w.toNat

theorem witness_EncodeOfDecode : decode 0xFFFF = .error (.unknownMisc 0xFFFF) ∧ decode 0xF965 = .ok (.restore 0x9) := by decide

theorem witness_ReadAfterWrite : (0xFFFF : Word).toNat % 4096 = (0x0FFF : Word).toNat % 4096 ∧
    (0x1000 : Word).toNat % 4096 ≠ (0x0FFF : Word).toNat % 4096 := by decide

theorem witness_StoredWordIsFetched : 14 + 1 ≤ (0xF : Nibble).toNat ∧
    ({ loaded with i := 0xFFFF, pc := 0x000D } : State).pc = ({ loaded with i := 0xFFFF, pc := 0x000D } : State).indexed 14 ∧
    0 + 1 ≤ (0x1 : Nibble).toNat ∧
    ({ loaded with i := 0x0202, pc := 0x0202 } : State).pc = ({ loaded with i := 0x0202, pc := 0x0202 } : State).indexed 0 := by
  decide

theorem witness_StepRunsDecodedInstruction : (atPc 0x6A42).mode = .active ∧ (atPc 0x6A42).paused = false ∧
    decode (atPc 0x6A42).fetchWord = .ok (.loadImm 0xA 0x42) := by decide

theorem witness_PlacedWordIsFetched : memIndex 0x0202 ≠ memIndex loaded.pc ∧ memIndex 0x0202 ≠ memIndex (loaded.pc + 1) ∧
    memIndex 0x01FF ≠ memIndex loaded.pc ∧ memIndex 0x01FF ≠ memIndex (loaded.pc + 1) := by decide

theorem witness_UnknownWordHalts : loaded.mode = .active ∧ loaded.paused = false ∧ wellFormedWord loaded.fetchWord = false ∧
    loaded.policy = .halt := by decide

theorem witness_UnknownWordSkipped : ({ loaded with policy := .skip } : State).mode = .active ∧
    ({ loaded with policy := .skip } : State).paused = false ∧
    wellFormedWord ({ loaded with policy := .skip } : State).fetchWord = false ∧
    ({ loaded with policy := .skip } : State).policy = .skip := by decide

/-- The depths of CALL and RETURN at both ends of their ranges; a statement's entry index is `n` = 0 or 15. -/
theorem witness_CallAndReturn : loaded.sp.val < 16 ∧ ({ loaded with sp := 15 } : State).sp.val < 16 ∧
    ({ loaded with sp := 16 } : State).sp.val = 16 ∧ ({ loaded with sp := 1 } : State).sp.val = 0 + 1 ∧
    ({ loaded with sp := 16 } : State).sp.val = 15 + 1 ∧ loaded.sp.val = 0 ∧
    (15 : Nat) ≠ ({ loaded with sp := 14 } : State).sp.val := by decide

/-- AddWithCarry, SubtractWithBorrow and ShiftsOutABit: a destination that is VF and one that is not. -/
theorem witness_FlagDestinations : (0xE : Nibble) ≠ vf ∧ ¬ (0xF : Nibble) ≠ vf := by decide

/-- StoreWritesBlock and BcdStoresDigits: an address outside the block, one below it and one above. -/
theorem witness_StoreWritesBlock :
    (∀ k, k ≤ (0x2 : Nibble).toNat → memIndex 0x02FF ≠ memIndex (State.indexed { loaded with i := 0x0300 } k)) ∧
    (∀ k, k < 3 → memIndex 0x0303 ≠ memIndex (State.indexed { loaded with i := 0x0300 } k)) := by decide

theorem witness_RestoreAfterStore : ∃ t, exec (.store 0xF) loaded = .next t ∧ (t.setV 0 0x55).mem = t.mem ∧ (t.setV 0 0x55).i = loaded.i :=
  ⟨_, rfl, rfl, rfl⟩

/-- DrawInvertsCoveredPixels: the corner pixel covered and on (VF = 1), and covered and off (VF = 0). -/
theorem witness_DrawInvertsCoveredPixels :
    let s := withByte 0x300 0x80 ({ loaded with i := 0x0300, fb := 1 <<< 2047 } : State) |>.setV 0 0x7F |>.setV 1 0xFF
    s.spriteCovers 0 1 1 63 31 = true ∧ s.pixel 63 31 = true ∧
    (∀ px, px < 64 → ∀ py, py < 32 → State.spriteCovers { s with fb := 0 } 0 1 1 px py = true →
      State.pixel { s with fb := 0 } px py = false) := by
  refine ⟨by decide, by decide, fun px _ py _ _ => ?_⟩
  simp [State.pixel]

/-- BlitLaws: a draw that turns a pixel on; the state after it, with a byte stored outside the sprite, agrees as far as the statement
asks although memory differs; pixels just outside the window on either count; and a draw that turns a pixel off. -/
theorem witness_BlitLaws : ∃ t, exec (.draw 0 1 1) loaded = .next t ∧ (withByte 0x300 1 t).fb = t.fb ∧
    (withByte 0x300 1 t).getV 0 = loaded.getV 0 ∧ (withByte 0x300 1 t).getV 1 = loaded.getV 1 ∧ (withByte 0x300 1 t).i = loaded.i ∧
    (∀ k, k < (1 : Nibble).toNat → (withByte 0x300 1 t).memRead (loaded.indexed k) = loaded.memRead (loaded.indexed k)) ∧
    (withByte 0x300 1 t).memRead 0x300 ≠ loaded.memRead 0x300 ∧
    t.fb.getLsbD 0 = true ∧ loaded.fb.getLsbD 0 = false ∧
    8 ≤ (8 + 64 - (loaded.getV 0).toNat % 64) % 64 ∧ (1 : Nibble).toNat ≤ (1 + 32 - (loaded.getV 1).toNat % 32) % 32 ∧
    (∃ u, exec (.draw 0 1 1) { loaded with fb := 1 } = .next u ∧ u.fb.getLsbD 0 = false) :=
  ⟨_, rfl, rfl, by decide, by decide, by decide, by decide, by decide, by decide, by decide, by decide, by decide, _, rfl, by decide⟩

theorem witness_WaitKeyCompletes : ({ loaded with keys := 0x8000 } : State).keys ≠ 0 := by decide

theorem witness_WaitKeyWaits : (atPc 0xF30A).mode = .active ∧ (atPc 0xF30A).paused = false ∧
    (atPc 0xF30A).fetchWord = encode (.waitKey 0x3) := by decide

theorem witness_TickDecrementsTimers : (loaded.mode = .active ∧ loaded.paused = false) ∧
    ¬ (({ loaded with paused := true } : State).mode = .active ∧ ({ loaded with paused := true } : State).paused = false) := by
  decide

theorem witness_OnlyLoadLeavesHalt : ({ loaded with mode := .halted } : State).mode = .halted ∧
    ({ loaded with mode := .unloaded } : State).mode = .unloaded ∧ (List.replicate 3584 (0 : Byte)).length ≤ 3584 :=
  ⟨rfl, rfl, by rw [List.length_replicate]⟩

theorem witness_PauseFreezes : ({ loaded with paused := true } : State).mode = .active ∧
    ({ loaded with paused := true } : State).paused = true := by decide

/-- LoadInitialises: an image that fills memory, its last byte, and with a short image the addresses at the clauses' ends. -/
theorem witness_LoadInitialises : (List.replicate 3584 (0 : Byte)).length ≤ 3584 ∧
    3583 < (List.replicate 3584 (0 : Byte)).length ∧ ([] : List Byte).length ≤ 3584 ∧ 79 < 80 ∧
    (80 ≤ 80 ∧ 80 < 0x200) ∧ (80 ≤ 0x201 ∧ 0x200 + [(0x12 : Byte)].length ≤ 0x201) := by
  simp only [List.length_replicate]; decide

theorem witness_TooLargeRomIsRefused : 3584 < (List.replicate 3585 (0 : Byte)).length := by
  rw [List.length_replicate]; decide

/-- TimersRunDown, EmptyRomHaltsAtOnce, and the invariant's statements, at reset. -/
theorem witness_Reset : loaded.mode = .active ∧ loaded.paused = false ∧ loaded.policy = .halt ∧ loaded.Inv := ⟨rfl, rfl, rfl, rfl, rfl⟩

/-- FlagWriters, OnlyDestinationsChange, MemoryIndexAndStackWriters, TimerAccess, PcAfterInstruction and the two on inputs: each
premise is met by some instruction that leads to a next state. -/
theorem witness_WholeMachine :
    (∃ t, exec (.addReg 0xF 0xA) loaded = .next t) ∧ writesFlag (.addReg 0xF 0xA) = true ∧
    (∃ t, exec (.copy 0xE 0xF) loaded = .next t) ∧ writesFlag (.copy 0xE 0xF) = false ∧
    namesDestination (.copy 0xE 0xF) vf = false ∧ namesDestination (.restore 0xE) vf = false ∧
    namesDestination (.addReg 0xA 0xB) vf = false ∧ namesDestination (.addReg 0xA 0xB) 0xB = false ∧
    writesMemory (.restore 0xF) = false ∧ writesIndex (.store 0xF) = false ∧ usesStack (.jump 0) = false ∧
    (∀ x, Instr.setSound 0 ≠ .setDelay x) ∧ (∀ x, Instr.setSound 0 ≠ .getDelay x) ∧ (∀ x, Instr.setDelay 0 ≠ .setSound x) ∧
    movesPc (.loadI 0) = false ∧ movesPc (.skipKey 0) = true ∧ usesStack (.skipKey 0) = false ∧
    (∀ nnn, Instr.skipKey 0 ≠ .jump nnn) ∧ (∀ x, Instr.skipKey 0 ≠ .waitKey x) ∧
    readsRnd (.waitKey 0) = false ∧ readsKeys (.random 0 0) = false := by
  refine ⟨⟨_, rfl⟩, by decide, ⟨_, rfl⟩, ?_⟩
  simp [writesFlag, namesDestination, writesMemory, writesIndex, usesStack, movesPc, readsRnd, readsKeys, vf]

/-- DisplayWriters: each of the three ways in which an event changes a framebuffer. -/
theorem witness_DisplayWriters :
    (∃ t, event (.load []) { loaded with fb := 1 } = .next t ∧ t.fb ≠ 1) ∧
    (∃ t, event (.step 0 0) { atPc 0x00E0 with fb := 1 } = .next t ∧ t.fb ≠ 1) ∧
    (∃ t, event (.step 0 0) (atPc 0xD011) = .next t ∧ t.fb ≠ (atPc 0xD011).fb) :=
  ⟨⟨_, rfl, by decide⟩, ⟨_, rfl, by decide⟩, ⟨_, rfl, by decide⟩⟩

/-- SoundFollowsTimer: each of the three ways in which an event changes `sound`. -/
theorem witness_SoundFollowsTimer :
    (∃ t, event (.load []) { loaded with st := 1 } = .next t ∧ t.sound ≠ State.sound { loaded with st := 1 }) ∧
    (∃ t, event .tick { loaded with st := 1 } = .next t ∧ t.sound ≠ State.sound { loaded with st := 1 }) ∧
    (∃ t, event (.step 0 0) { atPc 0xF518 with st := 1 } = .next t ∧ t.sound ≠ State.sound { atPc 0xF518 with st := 1 }) :=
  ⟨⟨_, rfl, by decide⟩, ⟨_, rfl, by decide⟩, ⟨_, rfl, by decide⟩⟩

theorem witness_UpdateOutputFollowsStep : (atPc 0xD011).mode = .active ∧ (atPc 0xD011).paused = false ∧
    ∃ t, stepEvent 0 0 (atPc 0xD011) = .next t := ⟨rfl, rfl, _, rfl⟩

theorem witness_OnlyStackErrorsHalt :
    (∃ t, exec (.call 0x300) { loaded with sp := 16 } = .next t ∧ ¬ KeepsRunState { loaded with sp := 16 } t) ∧
    (∃ t, exec .ret loaded = .next t ∧ ¬ KeepsRunState loaded t) := by
  refine ⟨⟨_, exec_call_full _ rfl, ?_⟩, ⟨_, exec_ret_empty rfl, ?_⟩⟩ <;> (rintro ⟨h, _⟩; cases h)

theorem witness_JumpToSelfIsFixedPoint : (atPc 0x1200).mode = .active ∧ (atPc 0x1200).paused = false ∧
    (atPc 0x1200).fetchWord = encode (.jump 0x200) ∧ (atPc 0x1200).pc.toNat = (0x200 : Addr).toNat := by decide

theorem witness_StepKeepsInvariant : loaded.Inv ∧ (∃ t, step loaded = .next t) ∧
    ∃ t, run [.tick, .step 0 0, .load []] loaded = .next t := by
  refine ⟨⟨rfl, rfl⟩, ?_, ⟨_, rfl⟩⟩
  rw [step_enabled rfl, stepEvent_enabled _ _ rfl rfl,
    runInstruction_error (e := .unknownSystem 0) _ _ (by rw [freeTicks_fetchWord]; rfl)]
  exact ⟨_, rfl⟩

end Sys2Proof.Tests
end

section
/-!
PROOFS. The invariant: each instruction and each event keeps it, its two halves (canonical memory, record agreeing with MODE) apart.
-/

namespace Sys2Proof.Machine

variable {s t : State} {i : Instr}

/-! ## What an instruction leaves alone -/

/-- Memory is written by STORE and BCD alone (20_memory.md R67). -/
theorem exec_mem_eq (hi : writesMemory i = false) (h : exec i s = .next t) : t.mem = s.mem := by
  cases i
  case store => cases hi
  case bcd => cases hi
  case ret => obtain ⟨_, rfl⟩ | ⟨_, rfl⟩ := exec_ret_cases h <;> rfl
  case call => obtain ⟨_, rfl⟩ | ⟨_, rfl⟩ := exec_call_cases h <;> rfl
  case waitKey => obtain ⟨_, rfl⟩ | ⟨_, rfl⟩ := exec_waitKey_cases h <;> rfl
  case restore => cases h; rw [restoreRegs_eq]
  all_goals cases h; rfl

/-- MODE and ERR are written by CALL and RETURN alone, on a full and on an empty stack (60_exceptions.md R210). -/
theorem exec_keepsRunState (hi : usesStack i = false) (h : exec i s = .next t) : KeepsRunState s t := by
  cases i
  case call => cases hi
  case ret => cases hi
  case waitKey => obtain ⟨_, rfl⟩ | ⟨_, rfl⟩ := exec_waitKey_cases h <;> exact ⟨rfl, rfl⟩
  case store => cases h; rw [storeRegs_eq]; exact ⟨rfl, rfl⟩
  case restore => cases h; rw [restoreRegs_eq]; exact ⟨rfl, rfl⟩
  all_goals cases h; exact ⟨rfl, rfl⟩

/-! ## Canonical memory -/

theorem exec_mem_wf (hm : s.mem.wf = true) (h : exec i s = .next t) : t.mem.wf = true := by
  cases i
  case store => cases h; exact storeRegs_wf _ hm
  case bcd => cases h; exact memWrite_wf _ _ (memWrite_wf _ _ (memWrite_wf _ _ hm))
  all_goals rw [exec_mem_eq rfl h]; exact hm

/-! ## The error record -/

/-- The agreement of ERR with MODE depends on these two alone. -/
theorem KeepsRunState.recordAgrees_eq (h : KeepsRunState s t) : t.recordAgrees = s.recordAgrees := by
  obtain ⟨hmode, herr⟩ := h
  unfold State.recordAgrees
  rw [hmode, herr]

theorem raise_recordAgrees {kind : ErrKind} (op : Word)
    (hk : kind = .unknownOpcode ∨ kind = .stackOverflow ∨ kind = .stackUnderflow) :
    (s.raise kind op).recordAgrees = true := by
  obtain rfl | rfl | rfl := hk <;> rfl

theorem unknownOpcode_recordAgrees (op : Word) (hr : s.recordAgrees = true) :
    (s.unknownOpcode op).recordAgrees = true := by
  cases hp : s.policy
  case halt => rw [unknownOpcode_halt op hp]; exact raise_recordAgrees op (.inl rfl)
  case skip => rw [unknownOpcode_skip op hp]; exact hr

theorem exec_recordAgrees (hr : s.recordAgrees = true) (h : exec i s = .next t) : t.recordAgrees = true := by
  cases i
  case call =>
    obtain ⟨_, rfl⟩ | ⟨_, rfl⟩ := exec_call_cases h
    · exact hr
    · exact raise_recordAgrees _ (.inr (.inl rfl))
  case ret =>
    obtain ⟨_, rfl⟩ | ⟨_, rfl⟩ := exec_ret_cases h
    · exact hr
    · exact raise_recordAgrees _ (.inr (.inr rfl))
  all_goals rw [(exec_keepsRunState rfl h).recordAgrees_eq]; exact hr

/-! ## The events -/

theorem exec_inv (hs : s.Inv) (h : exec i s = .next t) : t.Inv :=
  ⟨exec_mem_wf hs.1 h, exec_recordAgrees hs.2 h⟩

/-- The start of a Step touches neither memory nor MODE and ERR. -/
theorem beginStep_inv (keys : Word) (rnd : Byte) (hs : s.Inv) : (s.beginStep keys rnd).Inv := hs

theorem unknownOpcode_inv (op : Word) (hs : s.Inv) : (s.unknownOpcode op).Inv :=
  ⟨by rw [unknownOpcode_mem]; exact hs.1, unknownOpcode_recordAgrees op hs.2⟩

theorem stepEvent_inv {keys : Word} {rnd : Byte} (hs : s.Inv) (h : stepEvent keys rnd s = .next t) : t.Inv := by
  obtain ⟨_, _, rfl⟩ | ⟨_, i, _, hexec⟩ | ⟨_, _, _, rfl⟩ := stepEvent_cases h
  · exact hs
  · exact exec_inv (beginStep_inv keys rnd hs) hexec
  · exact unknownOpcode_inv _ (beginStep_inv keys rnd hs)

theorem tick_inv (hs : s.Inv) : s.tick.Inv := by
  cases he : s.enabled
  case false => rw [tick_of_not_enabled he]; exact hs
  case true => rw [tick_of_enabled he]; exact hs

/-- An accepted Load meets the invariant whatever the state was: an accepted ROM fits into memory (R250). -/
theorem event_load_inv {rom : List Byte} (h : event (.load rom) s = .next t) : t.Inv := by
  by_cases hlen : rom.length ≤ 3584
  · rw [event_load_ok hlen] at h
    cases h
    exact ⟨romMemory_wf rom Config.progBase (by simp only [Config.progBase]; omega), rfl⟩
  · rw [event_load_error (by omega)] at h
    cases h

theorem event_inv {e : Event} (hs : s.Inv) (h : event e s = .next t) : t.Inv := by
  cases e with
  | load rom => exact event_load_inv h
  | step keys rnd => exact stepEvent_inv hs h
  | tick => cases h; exact tick_inv hs
  | pause level => cases h; exact hs

/-- A run that leads to a next state is its first event and then the rest. -/
theorem run_cons_cases {e : Event} {more : List Event} (h : run (e :: more) s = .next t) :
    ∃ s', event e s = .next s' ∧ run more s' = .next t := by
  unfold run at h
  split at h
  next s' he => exact ⟨s', he, h⟩
  next => cases h
  next => cases h

/-- What every event keeps, every run keeps. -/
theorem run_induction {P : State → Prop} (hP : ∀ {e : Event} {s t : State}, P s → event e s = .next t → P t) :
    ∀ {es : List Event} {s t : State}, P s → run es s = .next t → P t := by
  intro es
  induction es with
  | nil => intro s t hs h; cases h; exact hs
  | cons e more ih =>
    intro s t hs h
    obtain ⟨s', he, hrun⟩ := run_cons_cases h
    exact ih (hP hs he) hrun

end Sys2Proof.Machine

open Sys2Proof.Machine

/-- Settles O60: every event keeps the invariant (`event_inv`), so every run does. -/
theorem runKeepsInvariant : Obligations.RunKeepsInvariant := fun _ _ _ => run_induction event_inv

end

section
/-!
PROOFS. The step of the machine left to itself keeps the invariant, and reset meets it and holds the values of the spec's table.
-/

namespace Sys2Proof.Machine

variable {s t : State}

/-- The Ticks before a Step touch neither memory nor MODE and ERR. -/
theorem freeTicks_inv (hs : s.Inv) : s.freeTicks.Inv := hs

theorem step_inv (hs : s.Inv) (h : step s = .next t) : t.Inv := by
  cases he : s.enabled
  case false => rw [step_not_enabled he] at h; exact stepEvent_inv hs h
  case true => rw [step_enabled he] at h; exact stepEvent_inv (freeTicks_inv hs) h

theorem reset_inv : State.reset.Inv := ⟨reset_mem_wf, rfl⟩

/-- The font stands at 0 to 79, and every other byte that is not listed is zero (20_memory.md R75). -/
theorem unlisted_eq (a : Nat) : unlisted a = if a < 80 then fontTable.getD a 0 else 0 := by
  have hfont : unlisted a = fontTable.getD a 0 := if_pos (Nat.zero_le a)
  rw [hfont]
  by_cases ha : a < 80
  · rw [if_pos ha]
  · rw [if_neg ha]
    exact List.getD_eq_default _ _ (Nat.le_of_not_lt ha)

theorem reset_read (a : Nat) : State.reset.mem.read a = unlisted a := rfl

theorem reset_getV (r : Nibble) : State.reset.getV r = 0 := Vector.getElem_replicate r.isLt

theorem reset_stack (k : Nat) (hk : k < 16) : State.reset.stack[k] = 0 := Vector.getElem_replicate hk

end Sys2Proof.Machine

open Sys2Proof.Machine

/-- Settles O59: the Ticks keep the invariant (`freeTicks_inv`), and so does the Step that follows (`stepEvent_inv`). -/
theorem stepKeepsInvariant : Obligations.StepKeepsInvariant := fun _ _ => step_inv

/-- Settles O58, by `reset_inv`. -/
theorem resetMeetsInvariant : Obligations.ResetMeetsInvariant := reset_inv

/-- Settles O44: the memory is the reset contents (`unlisted_eq`), as no byte is listed. -/
theorem resetValues : Obligations.ResetValues :=
  ⟨reset_getV, rfl, rfl, rfl, reset_stack, rfl, rfl, rfl, rfl, rfl, rfl, fun a => (reset_read a).trans (unlisted_eq a)⟩

end

section
/-!
PROOFS. The general registers: an instruction changes its destinations and VF as a flag, and a flag is 0 or 1.
-/

namespace Sys2Proof.Machine

variable {s t : State} {i : Instr}

theorem flagByte_cases (b : Bool) : flagByte b = 0 ∨ flagByte b = 1 := by cases b <;> decide

/-- VF after a flag-writing instruction is a flag: every flag computation ends in `flagByte` (10_state.md R21). -/
theorem exec_flag_vf (hi : writesFlag i = true) (h : exec i s = .next t) : ∃ b, t.getV vf = flagByte b := by
  cases i
  case addReg | sub | shr | subn | shl => cases h; exact ⟨_, setResultAndFlag_getV_vf _ _ _ _⟩
  case draw => cases h; exact ⟨_, setV_getV_same _ _ _⟩
  all_goals cases hi

/-- A register that is neither a destination nor the VF of a flag-writing instruction keeps its value (10_state.md R20, R21). -/
theorem exec_getV_eq {r : Nibble} (hd : namesDestination i r = false) (hf : r ≠ vf ∨ writesFlag i = false)
    (h : exec i s = .next t) : t.getV r = s.getV r := by
  cases i
  case loadImm | addImm | copy | orReg | andReg | xorReg | random | getDelay =>
    cases h; exact setV_getV_other _ _ (ne_of_beq_false hd)
  case waitKey =>
    obtain ⟨_, rfl⟩ | ⟨_, rfl⟩ := exec_waitKey_cases h
    · rfl
    · exact setV_getV_other _ _ (ne_of_beq_false hd)
  case addReg | sub | shr | subn | shl =>
    cases h; exact setResultAndFlag_getV_other _ _ _ (ne_of_beq_false hd) (hf.resolve_right nofun)
  case draw => cases h; exact setV_getV_other _ _ (hf.resolve_right nofun)
  case restore => cases h; exact restoreRegs_getV_other _ (Nat.lt_of_not_le (of_decide_eq_false hd))
  case store => cases h; exact storeRegs_getV _ _ _
  case bcd => cases h; simp only [memWrite_getV]
  case ret => obtain ⟨_, rfl⟩ | ⟨_, rfl⟩ := exec_ret_cases h <;> rfl
  case call => obtain ⟨_, rfl⟩ | ⟨_, rfl⟩ := exec_call_cases h <;> rfl
  all_goals cases h; rfl

end Sys2Proof.Machine

open Sys2Proof.Machine

/-- Settles O47, by the case split over the instructions in `exec_getV_eq`. -/
theorem onlyDestinationsChange : Obligations.OnlyDestinationsChange :=
  fun _ _ _ _ h hd hf => exec_getV_eq hd hf h

/-- Settles O46: what a flag-writing instruction leaves in VF is a flag; for any other VF is a register like the rest. -/
theorem flagWriters : Obligations.FlagWriters := by
  intro i s t h
  constructor
  · intro hi
    obtain ⟨b, hb⟩ := exec_flag_vf hi h
    rw [hb]; exact flagByte_cases b
  · intro hi hd
    exact exec_getV_eq hd (.inr hi) h

end

section
/-!
PROOFS. Where an instruction leaves PC.
-/

namespace Sys2Proof.Machine

variable {s t : State} {i : Instr}

/-- An instruction that is no jump, call, return, skip or key wait leaves PC at the advanced value (10_state.md R25). -/
theorem exec_pc_eq (hi : movesPc i = false) (h : exec i s = .next t) : t.pc = s.pc := by
  cases i
  case ret | jump | call | waitKey => cases hi
  case skipEqImm | skipNeImm | skipEqReg | skipNeReg | skipKey | skipNotKey => cases hi
  case store => cases h; rw [storeRegs_eq]
  case bcd => cases h; simp only [memWrite_pc]
  case restore => cases h; rw [restoreRegs_eq]
  all_goals cases h; rfl

/-- A skip leaves the advanced PC as it is or adds 2 to it (40_control_flow.md R130). -/
theorem skipIf_pc (s : State) (cond : Bool) : (s.skipIf cond).pc = s.pc ∨ (s.skipIf cond).pc = s.pc + 2 := by
  cases cond
  case false => exact .inl rfl
  case true => exact .inr rfl

/-- Of the instructions that may move PC, those that are no jump, call, return or key wait are the six skips. -/
theorem exec_skip_cases (hi : movesPc i = true) (hs : usesStack i = false) (hj : ∀ nnn, i ≠ .jump nnn)
    (hw : ∀ x, i ≠ .waitKey x) (h : exec i s = .next t) : ∃ cond, t = s.skipIf cond := by
  cases i
  case ret | call => cases hs
  case jump => exact absurd rfl (hj _)
  case waitKey => exact absurd rfl (hw _)
  case skipEqImm | skipNeImm | skipEqReg | skipNeReg | skipKey | skipNotKey => cases h; exact ⟨_, rfl⟩
  all_goals cases hi

theorem exec_waitKey_pc {x : Nibble} (h : exec (.waitKey x) s = .next t) : t.pc = s.pc ∨ t.pc = s.pc - 2 := by
  obtain ⟨_, rfl⟩ | ⟨_, rfl⟩ := exec_waitKey_cases h
  · exact .inr rfl
  · exact .inl rfl

end Sys2Proof.Machine

open Sys2Proof.Machine

/-- Settles O53, one clause per kind of instruction. -/
theorem pcAfterInstruction : Obligations.PcAfterInstruction := by
  intro i s t h
  refine ⟨fun hi => exec_pc_eq hi h, ?_, ?_⟩
  · intro hi hs hj hw
    obtain ⟨cond, rfl⟩ := exec_skip_cases hi hs hj hw h
    exact skipIf_pc s cond
  · rintro x rfl
    exact exec_waitKey_pc h

end

section
/-!
PROOFS. The key flags flow into the key skips and the key wait alone.
-/

namespace Sys2Proof.Machine

variable {s t : State} {i : Instr}

/-- An instruction that does not read the key flags runs alike under any others (10_state.md R34). -/
theorem exec_with_keys (k : Word) (hi : readsKeys i = false) (h : exec i s = .next t) :
    exec i { s with keys := k } = .next { t with keys := k } := by
  cases i
  case skipKey | skipNotKey | waitKey => cases hi
  case call =>
    obtain ⟨hl, rfl⟩ | ⟨hl, rfl⟩ := exec_call_cases h
    · exact exec_call_of_lt (s := { s with keys := k }) _ hl
    · exact exec_call_full _ hl
  case ret =>
    obtain ⟨hl, rfl⟩ | ⟨hl, rfl⟩ := exec_ret_cases h
    · exact exec_ret_of_pos (s := { s with keys := k }) hl
    · exact exec_ret_empty hl
  case store => cases h; rw [exec_store, storeRegs_with_keys]
  case restore => cases h; rw [exec_restore, restoreRegs_with_keys]
  all_goals cases h; rfl

end Sys2Proof.Machine

open Sys2Proof.Machine

/-- Settles O56, by `exec_with_keys`: the block transfers and the stack operations do not look at the keys either. -/
theorem keysReachOnlyKeyInstructions : Obligations.KeysReachOnlyKeyInstructions :=
  fun _ _ _ k => exec_with_keys k

end

section
/-!
PROOFS. Memory: a byte is read back after a write, the fetch reads what stands at PC, and which instructions write memory, I and
the stack.
-/

namespace Sys2Proof.Machine

variable {s t : State} {i : Instr}

/-! ## The fetch -/

/-- The word at PC as a number: the byte at PC is the high one (20_memory.md R65). -/
theorem fetchWord_toNat (s : State) :
    s.fetchWord.toNat = 256 * (s.memRead s.pc).toNat + (s.memRead (s.pc + 1)).toNat := by
  have hlo := (s.memRead (s.pc + 1)).isLt
  unfold State.fetchWord State.memRead16
  rw [BitVec.toNat_append, ← Nat.shiftLeft_add_eq_or_of_lt hlo, Nat.shiftLeft_eq]
  omega

/-- The address after `a` wraps at 2^16, which is a multiple of the memory size (20_memory.md R64). -/
theorem memIndex_add_one (a : Word) : memIndex (a + 1) = (a.toNat + 1) % 4096 := by
  have hone : (1 : Word).toNat = 1 := rfl
  simp only [memIndex, Config.memSize, BitVec.toNat_add, hone]
  omega

/-- The address after that of byte `k` of a block is that of byte `k + 1` (42_memory_index.md R166). -/
theorem indexed_succ (s : State) (k : Nat) : s.indexed (k + 1) = s.indexed k + 1 := by
  unfold State.indexed
  rw [BitVec.ofNat_add, BitVec.add_assoc]
  rfl

/-- With PC inside a block that was stored, the fetch reads the two registers stored there (42_memory_index.md R163). -/
theorem storeRegs_fetchWord {n k : Nat} (hn : n ≤ 16) (hk : k + 1 < n) (hpc : s.pc = s.indexed k) :
    (s.storeRegs n).fetchWord = s.getV (BitVec.ofNat 4 k) ++ s.getV (BitVec.ofNat 4 (k + 1)) := by
  have hpc' : (s.storeRegs n).pc = s.indexed k := by rw [storeRegs_eq]; exact hpc
  unfold State.fetchWord State.memRead16
  rw [hpc', ← indexed_succ, storeRegs_memRead_block s hn (by omega), storeRegs_memRead_block s hn hk]

/-! ## What an instruction leaves alone -/

/-- I is written by LOAD_I, ADD_I and FONT alone (10_state.md R23). -/
theorem exec_i_eq (hi : writesIndex i = false) (h : exec i s = .next t) : t.i = s.i := by
  cases i
  case loadI | addI | font => cases hi
  case ret => obtain ⟨_, rfl⟩ | ⟨_, rfl⟩ := exec_ret_cases h <;> rfl
  case call => obtain ⟨_, rfl⟩ | ⟨_, rfl⟩ := exec_call_cases h <;> rfl
  case waitKey => obtain ⟨_, rfl⟩ | ⟨_, rfl⟩ := exec_waitKey_cases h <;> rfl
  case store => cases h; rw [storeRegs_eq]
  case restore => cases h; rw [restoreRegs_eq]
  all_goals cases h; rfl

/-- The stack and its depth are written by CALL and RETURN alone (10_state.md R26). -/
theorem exec_keepsStack (hi : usesStack i = false) (h : exec i s = .next t) : KeepsStack s t := by
  cases i
  case call | ret => cases hi
  case waitKey => obtain ⟨_, rfl⟩ | ⟨_, rfl⟩ := exec_waitKey_cases h <;> exact ⟨rfl, rfl⟩
  case store => cases h; rw [storeRegs_eq]; exact ⟨rfl, rfl⟩
  case restore => cases h; rw [restoreRegs_eq]; exact ⟨rfl, rfl⟩
  all_goals cases h; exact ⟨rfl, rfl⟩

/-- Every address reads the memory field alone. -/
theorem keepsMemory_of_mem_eq (h : t.mem = s.mem) : KeepsMemory s t := by
  intro a
  unfold State.memRead
  rw [h]

end Sys2Proof.Machine

open Sys2Proof.Machine

/-- Settles O6, by `memWrite_memRead`: two addresses name one byte exactly when their indices agree. -/
theorem readAfterWrite : Obligations.ReadAfterWrite := by
  intro s a b
  refine ⟨fun c hc => ?_, fun c hc => ?_, keepsAllButMemory_mk s _⟩
  · rw [memWrite_memRead]; exact if_pos hc
  · rw [memWrite_memRead]; exact if_neg hc

/-- Settles O7: STORE writes V0 to Vx, at most 16 bytes, and the word at PC is two of them (`storeRegs_fetchWord`). -/
theorem storedWordIsFetched : Obligations.StoredWordIsFetched := by
  intro x k s hk hpc
  have hx := x.isLt
  exact ⟨_, exec_store s x, storeRegs_fetchWord (by omega) (by omega) hpc⟩

/-- Settles O50, one frame lemma per part of the state, each a case split over the instructions. -/
theorem memoryIndexAndStackWriters : Obligations.MemoryIndexAndStackWriters :=
  fun _ _ _ h => ⟨fun hi => keepsMemory_of_mem_eq (exec_mem_eq hi h), fun hi => exec_i_eq hi h, fun hi => exec_keepsStack hi h⟩

/-- Settles O5: the bytes at PC and at the next address (`memIndex_add_one`), the first being the high one. -/
theorem fetchIsBigEndian : Obligations.FetchIsBigEndian := by
  intro s
  rw [fetchWord_toNat]
  unfold State.memRead
  rw [memIndex_add_one]
  rfl

end

section
/-!
PROOFS. Decoding and encoding: each is the other's inverse, and decoding agrees with the mask and match columns of the opcode map.
-/

namespace Sys2Proof

variable {w : Word} {i : Instr}

/-! ## From an instruction to its word and back -/

/-- By the fields that select an instruction, and within a format by the fields that are its operands (30_encoding.md R93, R95). -/
theorem decode_encode (i : Instr) : decode (encode i) = .ok i := by
  cases i
  case clear | ret => rfl
  case jump | call | loadI => simp [encode, decode]
  case skipEqImm | skipNeImm | loadImm | addImm | random => simp [encode, decode]
  case draw => simp [encode, decode]
  case skipEqReg | skipNeReg => simp [encode, decode, decodeSkipReg]
  case copy | orReg | andReg | xorReg | addReg | sub | shr | subn | shl => simp [encode, decode, decode8]
  case skipKey | skipNotKey => simp [encode, decode, decodeE]
  case getDelay | waitKey | setDelay | setSound | addI | font | bcd | store | restore => simp [encode, decode, decodeF]

/-! ## From a word to its instruction and back -/

theorem wordNNN_of_fields {c : Nibble} {nnn : Addr} (hc : (fieldC w).toNat = c.toNat)
    (hn : (fieldNNN w).toNat = nnn.toNat) : wordNNN c nnn = w := by
  rw [← BitVec.eq_of_toNat_eq hc, ← BitVec.eq_of_toNat_eq hn, wordNNN_fields]

theorem wordXNN_of_fields {c : Nibble} {nn : Byte} (hc : (fieldC w).toNat = c.toNat)
    (hn : (fieldNN w).toNat = nn.toNat) : wordXNN c (fieldX w) nn = w := by
  rw [← BitVec.eq_of_toNat_eq hc, ← BitVec.eq_of_toNat_eq hn, wordXNN_fields]

theorem wordXYN_of_fields {c n : Nibble} (hc : (fieldC w).toNat = c.toNat) (hn : (fieldN w).toNat = n.toNat) :
    wordXYN c (fieldX w) (fieldY w) n = w := by
  rw [← BitVec.eq_of_toNat_eq hc, ← BitVec.eq_of_toNat_eq hn, wordXYN_fields]

theorem encode_of_decode0 (hc : (fieldC w).toNat = 0x0) (h : decode0 w = .ok i) : encode i = w := by
  unfold decode0 at h
  split at h
  next hn => cases h; exact wordNNN_of_fields (c := 0x0) (nnn := 0x0E0) hc hn
  next hn => cases h; exact wordNNN_of_fields (c := 0x0) (nnn := 0x0EE) hc hn
  next => cases h

/-- Category 5 or 9 with `n` = 0 (D4). -/
theorem decodeSkipReg_eq_ok {i' : Instr} (h : decodeSkipReg w i' = .ok i) : i' = i ∧ (fieldN w).toNat = 0x0 := by
  unfold decodeSkipReg at h
  split at h
  next hn => cases h; exact ⟨rfl, hn⟩
  next => cases h

theorem encode_of_decode8 (hc : (fieldC w).toNat = 0x8) (h : decode8 w = .ok i) : encode i = w := by
  unfold decode8 at h
  split at h <;> cases h
  all_goals exact wordXYN_of_fields hc ‹_›

theorem encode_of_decodeE (hc : (fieldC w).toNat = 0xE) (h : decodeE w = .ok i) : encode i = w := by
  unfold decodeE at h
  split at h <;> cases h
  all_goals exact wordXNN_of_fields hc ‹_›

theorem encode_of_decodeF (hc : (fieldC w).toNat = 0xF) (h : decodeF w = .ok i) : encode i = w := by
  unfold decodeF at h
  split at h <;> cases h
  all_goals exact wordXNN_of_fields hc ‹_›

/-- No bit of a word is dropped: each is part of the fields that select the instruction or of an operand. -/
theorem encode_of_decode (h : decode w = .ok i) : encode i = w := by
  unfold decode at h
  split at h
  next hc => exact encode_of_decode0 hc h
  next hc => cases h; exact wordNNN_of_fields hc rfl
  next hc => cases h; exact wordNNN_of_fields hc rfl
  next hc => cases h; exact wordXNN_of_fields hc rfl
  next hc => cases h; exact wordXNN_of_fields hc rfl
  next hc => obtain ⟨rfl, hn⟩ := decodeSkipReg_eq_ok h; exact wordXYN_of_fields hc hn
  next hc => cases h; exact wordXNN_of_fields hc rfl
  next hc => cases h; exact wordXNN_of_fields hc rfl
  next hc => exact encode_of_decode8 hc h
  next hc => obtain ⟨rfl, hn⟩ := decodeSkipReg_eq_ok h; exact wordXYN_of_fields hc hn
  next hc => cases h; exact wordNNN_of_fields hc rfl
  next => cases h
  next hc => cases h; exact wordXNN_of_fields hc rfl
  next hc => cases h; exact wordXYN_of_fields hc rfl
  next hc => exact encode_of_decodeE hc h
  next =>
    have hlt := (fieldC w).isLt
    have hc : (fieldC w).toNat = 0xF := by grind
    exact encode_of_decodeF hc h

/-! ## The opcode map -/

theorem fieldC_of_accepts {v : Word} (h : OpcodeRow.accepts ⟨v, 0xF000⟩ w = true) : fieldC w = fieldC v := by
  have hv : w &&& 0xF000 = v := eq_of_beq h
  rw [← hv, and_F000, fieldC_wordNNN]

theorem fields_of_accepts_F00F {v : Word} (h : OpcodeRow.accepts ⟨v, 0xF00F⟩ w = true) :
    fieldC w = fieldC v ∧ fieldN w = fieldN v := by
  have hv : w &&& 0xF00F = v := eq_of_beq h
  rw [← hv, and_F00F, fieldC_wordXYN, fieldN_wordXYN]
  exact ⟨rfl, rfl⟩

theorem fields_of_accepts_F0FF {v : Word} (h : OpcodeRow.accepts ⟨v, 0xF0FF⟩ w = true) :
    fieldC w = fieldC v ∧ fieldNN w = fieldNN v := by
  have hv : w &&& 0xF0FF = v := eq_of_beq h
  rw [← hv, and_F0FF, fieldC_wordXNN, fieldNN_wordXNN]
  exact ⟨rfl, rfl⟩

theorem eq_of_accepts_FFFF {v : Word} (h : OpcodeRow.accepts ⟨v, 0xFFFF⟩ w = true) : w = v :=
  (and_FFFF w).symm.trans (eq_of_beq h)

/-- The fields that a row's mask keeps are those that `decode` selects by. -/
theorem decode_of_row_accepts (j : Instr) (h : j.row.accepts w = true) : ∃ i, decode w = .ok i ∧ i.row = j.row := by
  cases j
  case clear | ret => obtain rfl := eq_of_accepts_FFFF h; exact ⟨_, rfl, rfl⟩
  case jump | call | loadI | skipEqImm | skipNeImm | loadImm | addImm | random | draw =>
    have hc := fieldC_of_accepts h
    unfold decode
    rw [hc]
    exact ⟨_, rfl, rfl⟩
  case skipEqReg | skipNeReg | copy | orReg | andReg | xorReg | addReg | sub | shr | subn | shl =>
    obtain ⟨hc, hn⟩ := fields_of_accepts_F00F h
    unfold decode decodeSkipReg decode8
    rw [hc, hn]
    exact ⟨_, rfl, rfl⟩
  case skipKey | skipNotKey | getDelay | waitKey | setDelay | setSound | addI | font | bcd | store | restore =>
    obtain ⟨hc, hnn⟩ := fields_of_accepts_F0FF h
    unfold decode decodeE decodeF
    rw [hc, hnn]
    exact ⟨_, rfl, rfl⟩

/-- A row of the map that accepts a word is the row of the instruction that the word decodes to. -/
theorem decode_of_accepts {r : OpcodeRow} (hr : r ∈ opcodeMap) (h : r.accepts w = true) :
    ∃ i, decode w = .ok i ∧ i.row = r := by
  obtain ⟨j, _, rfl⟩ := List.mem_map.1 hr
  exact decode_of_row_accepts j h

/-- An instruction's row accepts its word (30_encoding.md R96): the per-constructor lemmas put together. -/
theorem row_accepts_encode : ∀ i : Instr, i.row.accepts (encode i) = true
  | .clear => Laws.EncodeInRow.clear
  | .ret => Laws.EncodeInRow.ret
  | .jump nnn => Laws.EncodeInRow.jump nnn
  | .call nnn => Laws.EncodeInRow.call nnn
  | .skipEqImm x nn => Laws.EncodeInRow.skipEqImm x nn
  | .skipNeImm x nn => Laws.EncodeInRow.skipNeImm x nn
  | .skipEqReg x y => Laws.EncodeInRow.skipEqReg x y
  | .loadImm x nn => Laws.EncodeInRow.loadImm x nn
  | .addImm x nn => Laws.EncodeInRow.addImm x nn
  | .copy x y => Laws.EncodeInRow.copy x y
  | .orReg x y => Laws.EncodeInRow.orReg x y
  | .andReg x y => Laws.EncodeInRow.andReg x y
  | .xorReg x y => Laws.EncodeInRow.xorReg x y
  | .addReg x y => Laws.EncodeInRow.addReg x y
  | .sub x y => Laws.EncodeInRow.sub x y
  | .shr x y => Laws.EncodeInRow.shr x y
  | .subn x y => Laws.EncodeInRow.subn x y
  | .shl x y => Laws.EncodeInRow.shl x y
  | .skipNeReg x y => Laws.EncodeInRow.skipNeReg x y
  | .loadI nnn => Laws.EncodeInRow.loadI nnn
  | .random x nn => Laws.EncodeInRow.random x nn
  | .draw x y n => Laws.EncodeInRow.draw x y n
  | .skipKey x => Laws.EncodeInRow.skipKey x
  | .skipNotKey x => Laws.EncodeInRow.skipNotKey x
  | .getDelay x => Laws.EncodeInRow.getDelay x
  | .waitKey x => Laws.EncodeInRow.waitKey x
  | .setDelay x => Laws.EncodeInRow.setDelay x
  | .setSound x => Laws.EncodeInRow.setSound x
  | .addI x => Laws.EncodeInRow.addI x
  | .font x => Laws.EncodeInRow.font x
  | .bcd x => Laws.EncodeInRow.bcd x
  | .store x => Laws.EncodeInRow.store x
  | .restore x => Laws.EncodeInRow.restore x

end Sys2Proof

open Sys2Proof Sys2Proof.Machine

/-- Settles O2, by `decode_encode`. -/
theorem decodeOfEncode : Obligations.DecodeOfEncode := decode_encode

/-- Settles O3, by `encode_of_decode`. -/
theorem encodeOfDecode : Obligations.EncodeOfDecode := fun _ _ => encode_of_decode

/-- Settles O4: a row that accepts a word is the row of the instruction the word decodes to (`decode_of_row_accepts`), and an
instruction's own row accepts its word (`row_accepts_encode`). -/
theorem decodeMatchesOpcodeMap : Obligations.DecodeMatchesOpcodeMap := by
  constructor
  · intro w i hi
    refine ⟨encode_of_decode hi ▸ row_accepts_encode i, fun r hr ha => ?_⟩
    obtain ⟨k, hk, hrow⟩ := decode_of_accepts hr ha
    cases hi.symm.trans hk
    exact hrow.symm
  · intro w e he r hr
    refine Bool.eq_false_of_not_eq_true fun ha => ?_
    obtain ⟨k, hk, _⟩ := decode_of_accepts hr ha
    cases he.symm.trans hk

/-- Settles O1: nine words of the decode table and one word of each class of R97, decoded. -/
theorem sampleWordsDecode : Obligations.SampleWordsDecode := by
  unfold Obligations.SampleWordsDecode
  decide

end

section
/-!
PROOFS. The event Step: it runs the decoded instruction, every instruction completes, and a placed word is what it fetches.
-/

namespace Sys2Proof.Machine

/-- CALL and RETURN answer a next state in each of their two cases (a stack error is one), and so does WAIT_KEY. -/
theorem exec_completes (i : Instr) (s : State) : ∃ t, exec i s = .next t := by
  cases i
  case call =>
    by_cases hsp : s.sp.val = 16
    · exact ⟨_, exec_call_full _ hsp⟩
    · exact ⟨_, exec_call_of_lt _ (by omega)⟩
  case ret =>
    by_cases hsp : s.sp.val = 0
    · exact ⟨_, exec_ret_empty hsp⟩
    · exact ⟨_, exec_ret_of_pos (Nat.pos_of_ne_zero hsp)⟩
  all_goals exact ⟨_, rfl⟩

/-! ## The Step -/

variable {s : State} {i : Instr}

theorem stepEvent_ok (keys : Word) (rnd : Byte) (hm : s.mode = .active) (hp : s.paused = false)
    (hd : decode s.fetchWord = .ok i) : stepEvent keys rnd s = exec i (s.beginStep keys rnd) := by
  rw [stepEvent_enabled keys rnd hm hp, runInstruction_ok keys rnd hd]

/-- The Ticks before a Step change neither the fetched word nor whether the Step is enabled. -/
theorem step_ok (hm : s.mode = .active) (hp : s.paused = false) (hd : decode s.fetchWord = .ok i) :
    step s = exec i (s.freeTicks.beginStep (Config.freeKeys s.draws) (Config.freeRnd s.draws)) := by
  rw [step_enabled ((enabled_iff s).2 ⟨hm, hp⟩)]
  exact stepEvent_ok (s := s.freeTicks) _ _ hm hp hd

/-- Two is added modulo 2^16 (10_state.md R25). -/
theorem beginStep_pc_toNat (s : State) (keys : Word) (rnd : Byte) :
    (s.beginStep keys rnd).pc.toNat = (s.pc.toNat + 2) % 65536 :=
  BitVec.toNat_add s.pc 2

/-! ## The placing of a word -/

/-- A word of the table as bytes, the most significant first (30_encoding.md R90). -/
theorem bytesOfTableWord_toNat (w : Word) : bytesOfTableWord 16 w.toNat = [w.extractLsb' 8 8, w.extractLsb' 0 8] := by
  have hw : BitVec.ofNat 16 (w.toNat % 2 ^ 16) = w := by rw [Nat.mod_eq_of_lt w.isLt, BitVec.ofNat_toNat, BitVec.setWidth_eq]
  unfold bytesOfTableWord
  rw [hw]

theorem highByte_append_lowByte (w : Word) : (w.extractLsb' 8 8 ++ w.extractLsb' 0 8 : Word) = w :=
  BitVec.extractLsb'_append_extractLsb'_eq_extractLsb' rfl |>.trans BitVec.extractLsb'_eq_self

/-- The two placed bytes at PC and PC + 1, every other byte as before. -/
theorem withFetchWord_memRead (s : State) (w a : Word) :
    (s.withFetchWord 16 w.toNat).memRead a =
      if memIndex a = memIndex s.pc then w.extractLsb' 8 8
      else if memIndex a = memIndex (s.pc + 1) then w.extractLsb' 0 8 else s.memRead a := by
  unfold State.withFetchWord
  rw [bytesOfTableWord_toNat]
  show ((s.memWrite (s.pc + 1) _).memWrite s.pc _).memRead a = _
  rw [memWrite_memRead, memWrite_memRead]

theorem withFetchWord_pc (s : State) (w : Word) : (s.withFetchWord 16 w.toNat).pc = s.pc := rfl

/-- The two bytes of a word never share an index, even where the address wraps (20_memory.md R64). -/
theorem memIndex_add_one_ne (a : Word) : memIndex (a + 1) ≠ memIndex a := by
  rw [memIndex_add_one]
  unfold memIndex Config.memSize
  omega

theorem withFetchWord_fetchWord (s : State) (w : Word) : (s.withFetchWord 16 w.toNat).fetchWord = w := by
  unfold State.fetchWord State.memRead16
  rw [withFetchWord_pc, withFetchWord_memRead, if_pos rfl, withFetchWord_memRead, if_neg (memIndex_add_one_ne s.pc),
    if_pos rfl, highByte_append_lowByte]

end Sys2Proof.Machine

open Sys2Proof.Machine

/-- Settles O45, by `exec_completes`. -/
theorem everyInstructionCompletes : Obligations.EveryInstructionCompletes := exec_completes

/-- Settles O8: the event Step (`stepEvent_ok`), the Step after the free Ticks (`step_ok`), and the start of a Step. -/
theorem stepRunsDecodedInstruction : Obligations.StepRunsDecodedInstruction :=
  ⟨fun _ _ keys rnd => stepEvent_ok keys rnd, fun _ _ => step_ok,
    fun s keys rnd => ⟨beginStep_pc_toNat s keys rnd, rfl, rfl, rfl, rfl, beginStep_fetchAddr s keys rnd⟩⟩

/-- Settles O9: the fetch reads the two bytes that `withFetchWord_memRead` says are placed, and they have different addresses. -/
theorem placedWordIsFetched : Obligations.PlacedWordIsFetched := by
  intro s w
  refine ⟨withFetchWord_fetchWord s w, rfl, withFetchWord_pc s w, fun a hhi hlo => ?_⟩
  rw [withFetchWord_memRead, if_neg hhi, if_neg hlo]

end

section
/-!
PROOFS. Control flow: CLEAR, the jump, the two stack operations with an entry to use, and the six skips.
-/

namespace Sys2Proof.Machine

/-! ## The skips -/

section
variable (s : State) {cond : Bool} {P : Prop} [Decidable P]

/-- A skip keeps everything but PC (40_control_flow.md R130). -/
theorem skipIf_keepsAllButPc (cond : Bool) : KeepsAllButPc s (s.skipIf cond) := keepsAllButPc_mk s _

theorem skipIf_pc_of_iff (h : cond = true ↔ P) : (s.skipIf cond).pc = if P then s.pc + 2 else s.pc :=
  ite_congr (propext h) (fun _ => rfl) (fun _ => rfl)

/-- A skip on the negation of `cond` adds 2 where the skip on `cond` does not. -/
theorem skipIf_not_pc_of_iff (h : cond = true ↔ P) : (s.skipIf (!cond)).pc = if P then s.pc else s.pc + 2 := by
  have hnot : (!cond) = true ↔ ¬ P := by rw [Bool.not_eq_true', Bool.eq_false_iff, ne_eq, h]
  rw [skipIf_pc_of_iff s hnot, ite_not]

/-- The 2 is added modulo 2^16 (40_control_flow.md R130). -/
theorem skipIf_pc_toNat_of_iff (h : cond = true ↔ P) :
    (s.skipIf cond).pc.toNat = if P then (s.pc.toNat + 2) % 65536 else s.pc.toNat := by
  rw [skipIf_pc_of_iff s h, apply_ite BitVec.toNat, BitVec.toNat_add]
  rfl

variable (a b : Byte)

/-- A skip on equality, of a register with an immediate or with a register (40_control_flow.md R124, R126). -/
theorem skipIf_beq_pc_toNat :
    (s.skipIf (a == b)).pc.toNat = if a.toNat = b.toNat then (s.pc.toNat + 2) % 65536 else s.pc.toNat :=
  skipIf_pc_toNat_of_iff s (beq_iff_eq.trans BitVec.toNat_inj.symm)

/-- A skip on inequality (40_control_flow.md R125, R127). -/
theorem skipIf_bne_pc_toNat :
    (s.skipIf (a != b)).pc.toNat = if a.toNat = b.toNat then s.pc.toNat else (s.pc.toNat + 2) % 65536 := by
  rw [skipIf_pc_toNat_of_iff s (bne_iff_ne.trans (not_congr BitVec.toNat_inj.symm)), ite_not]

end

/-! ## The call stack -/

/-- What CALL and RETURN leave alone where they take no error: everything but PC, the stack and its depth. -/
def KeepsAllButPcAndStack (s t : State) : Prop :=
  KeepsRegs s t ∧ t.i = s.i ∧ KeepsMemory s t ∧ KeepsTimers s t ∧ KeepsDisplay s t ∧ KeepsRunState s t ∧
    KeepsInputs s t ∧ KeepsOutputs s t

theorem keepsAllButPcAndStack_mk (s : State) (stack : Vector Word 16) (sp : Fin 17) (w : Word) :
    KeepsAllButPcAndStack s (State.setPc { s with stack := stack, sp := sp } w) :=
  ⟨fun _ => rfl, rfl, fun _ => rfl, ⟨rfl, rfl⟩, rfl, ⟨rfl, rfl⟩, ⟨rfl, rfl, rfl, rfl, rfl⟩, ⟨rfl, rfl⟩⟩

/-- The newest entry of a stack of depth `n + 1` is entry `n` (10_state.md R29). -/
theorem exec_ret_of_succ {s : State} {n : Nat} (hn : n < 16) (hsp : s.sp.val = n + 1) :
    exec .ret s = .next (State.setPc { s with sp := ⟨n, by omega⟩ } s.stack[n]) := by
  have hpos : 0 < s.sp.val := by omega
  have htop : s.sp.val - 1 = n := by omega
  rw [exec_ret_of_pos hpos]
  simp only [htop]

end Sys2Proof.Machine

open Sys2Proof.Machine

/-- Settles O18: one operation, on the equality of a byte and an immediate and on its negation. -/
theorem skipOnImmediate : Obligations.SkipOnImmediate := fun x nn s =>
  ⟨⟨_, exec_skipEqImm s x nn, skipIf_beq_pc_toNat s _ _, skipIf_keepsAllButPc s _⟩,
    ⟨_, exec_skipNeImm s x nn, skipIf_bne_pc_toNat s _ _, skipIf_keepsAllButPc s _⟩⟩

/-- Settles O19: as O18, on two registers. -/
theorem skipOnRegisters : Obligations.SkipOnRegisters := fun x y s =>
  ⟨⟨_, exec_skipEqReg s x y, skipIf_beq_pc_toNat s _ _, skipIf_keepsAllButPc s _⟩,
    ⟨_, exec_skipNeReg s x y, skipIf_bne_pc_toNat s _ _, skipIf_keepsAllButPc s _⟩⟩

/-- Settles O20: the condition is the key bit numbered by the low digit of Vx, or its negation. -/
theorem skipOnKey : Obligations.SkipOnKey := fun x s =>
  ⟨⟨_, exec_skipKey s x, skipIf_pc_of_iff s Iff.rfl, skipIf_keepsAllButPc s _⟩,
    ⟨_, exec_skipNotKey s x, skipIf_not_pc_of_iff s Iff.rfl, skipIf_keepsAllButPc s _⟩⟩

/-- Settles O12: every pixel is a bit of the zero framebuffer. -/
theorem clearBlanksDisplay : Obligations.ClearBlanksDisplay := fun s =>
  ⟨_, exec_clear s, fun _ _ => BitVec.getLsbD_zero, rfl, rfl, rfl, fun _ => rfl, rfl, rfl, fun _ => rfl, ⟨rfl, rfl⟩, ⟨rfl, rfl⟩,
    ⟨rfl, rfl⟩, ⟨rfl, rfl, rfl, rfl, rfl⟩⟩

/-- Settles O13: the zero extension keeps the value of the target (`addrWord_toNat`). -/
theorem jumpReplacesPc : Obligations.JumpReplacesPc := fun nnn s =>
  ⟨_, exec_jump s nnn, addrWord_toNat nnn, keepsAllButPc_mk s _⟩

/-- Settles O14: the push writes the entry at SP alone. -/
theorem callPushesAndJumps : Obligations.CallPushesAndJumps := fun nnn s h =>
  ⟨_, exec_call_of_lt nnn h, addrWord_toNat nnn, rfl, Vector.getElem_set_self h,
    fun _ hk hne => Vector.getElem_set_ne h hk hne.symm, keepsAllButPcAndStack_mk s _ _ _⟩

/-- Settles O15: the entry below SP replaces PC, and the array is not written (`exec_ret_of_succ`). -/
theorem returnPopsIntoPc : Obligations.ReturnPopsIntoPc := fun _ hn s hsp =>
  ⟨_, exec_ret_of_succ hn hsp, rfl, rfl, rfl, keepsAllButPcAndStack_mk s s.stack _ _⟩

/-- Settles O17: RETURN pops the entry that CALL pushed, as the start of a Step leaves the stack alone. -/
theorem returnUndoesCall : Obligations.ReturnUndoesCall := by
  intro nnn s keys rnd hsp
  obtain ⟨t, hcall, _, hdepth, hpushed, _⟩ := callPushesAndJumps nnn s hsp
  obtain ⟨u, hret, hpc, hsp', _⟩ := returnPopsIntoPc s.sp.val hsp (t.beginStep keys rnd) hdepth
  exact ⟨t, u, hcall, hret, hpc.trans hpushed, Fin.ext hsp'⟩

end

section
/-!
PROOFS. Arithmetic: a register operation writes one register, or a result and then VF; what is left is the value as a number.
-/

namespace Sys2Proof.Machine

/-! ## The two shapes of a register operation -/

section
variable {i : Instr} {s : State} {x : Nibble} {r f : Byte}

/-- An instruction that writes `Vx` alone: what is said of the byte holds of the register, and the rest is kept. -/
theorem exec_setV_meets (P : Byte → Prop) (h : exec i s = .next (s.setV x r)) (hr : P r) :
    ∃ t, exec i s = .next t ∧ P (t.getV x) ∧ KeepsRegsBut (· = x) s t ∧ KeepsAllButRegs s t :=
  ⟨_, h, (setV_getV_same s x r).symm ▸ hr, keepsRegsBut_setV s x r, keepsAllButRegs_mk s _⟩

/-- An instruction that writes its result and then VF, which is what stays with `x` = F (10_state.md R22). -/
theorem exec_setResultAndFlag_meets {m n : Nat} (h : exec i s = .next (s.setResultAndFlag x r f)) (hr : r.toNat = m)
    (hf : f.toNat = n) :
    ∃ t, exec i s = .next t ∧ (x ≠ vf → (t.getV x).toNat = m) ∧ (t.getV vf).toNat = n ∧
      KeepsRegsBut (fun q => q = x ∨ q = vf) s t ∧ KeepsAllButRegs s t :=
  ⟨_, h, fun hx => (congrArg BitVec.toNat (setResultAndFlag_getV_dest s r f hx)).trans hr,
    (congrArg BitVec.toNat (setResultAndFlag_getV_vf s x r f)).trans hf,
    keepsRegsBut_setResultAndFlag s x r f, keepsAllButRegs_mk s _⟩

end

/-! ## Results and flags as numbers -/

section
variable (a b : Byte)

/-- Two bytes sum to less than 512, so the quotient by 256 is the carry bit (41_arithmetic.md R140). -/
theorem carryFlag_toNat : (carryFlag a b).toNat = (a.toNat + b.toNat) / 256 := by
  have ha := a.isLt
  have hb := b.isLt
  rw [carryFlag, flagByte_toNat]
  simp only [decide_eq_true_eq]
  split <;> omega

theorem noBorrowFlag_toNat : (noBorrowFlag a b).toNat = if b.toNat ≤ a.toNat then 1 else 0 := by
  rw [noBorrowFlag, flagByte_toNat]
  simp only [decide_eq_true_eq]

theorem byte_sub_toNat : (a - b).toNat = (a.toNat + 256 - b.toNat) % 256 := by
  have hb := b.isLt
  rw [BitVec.toNat_sub]
  omega

theorem lowBitFlag_toNat : (lowBitFlag a).toNat = a.toNat % 2 := by
  rw [lowBitFlag, flagByte_toNat, BitVec.getLsbD, Nat.testBit_zero]
  simp only [decide_eq_true_eq]
  split <;> omega

/-- Bit 7 is the most significant bit of a byte. -/
theorem highBitFlag_toNat : (highBitFlag a).toNat = a.toNat / 128 := by
  have ha := a.isLt
  have hmsb : a.getLsbD 7 = decide (128 ≤ a.toNat) := (BitVec.msb_eq_getLsbD_last a).symm.trans (BitVec.msb_eq_decide a)
  rw [highBitFlag, flagByte_toNat, hmsb]
  simp only [decide_eq_true_eq]
  split <;> omega

theorem byte_shiftRight_one_toNat : (a >>> 1).toNat = a.toNat / 2 := by
  rw [BitVec.toNat_ushiftRight, Nat.shiftRight_one]

theorem byte_shiftLeft_one_toNat : (a <<< 1).toNat = 2 * a.toNat % 256 := by
  rw [BitVec.toNat_shiftLeft, Nat.shiftLeft_eq, Nat.mul_comm]

end

end Sys2Proof.Machine

open Sys2Proof.Machine

/-- Settles O21: one write of Vx, of the immediate or of the sum. -/
theorem immediateArithmetic : Obligations.ImmediateArithmetic := fun x nn s =>
  ⟨exec_setV_meets (· = nn) (exec_loadImm s x nn) rfl,
    exec_setV_meets (·.toNat = ((s.getV x).toNat + nn.toNat) % 256) (exec_addImm s x nn) (BitVec.toNat_add _ _)⟩

/-- Settles O22: one write of Vx; a bit of a bitwise result is the operation on the two bits. -/
theorem copyAndBitwise : Obligations.CopyAndBitwise := fun x y s =>
  ⟨exec_setV_meets (· = s.getV y) (exec_copy s x y) rfl,
    exec_setV_meets (fun r => ∀ k, r.getLsbD k = ((s.getV x).getLsbD k || (s.getV y).getLsbD k)) (exec_orReg s x y)
      fun _ => BitVec.getLsbD_or,
    exec_setV_meets (fun r => ∀ k, r.getLsbD k = ((s.getV x).getLsbD k && (s.getV y).getLsbD k)) (exec_andReg s x y)
      fun _ => BitVec.getLsbD_and,
    exec_setV_meets (fun r => ∀ k, r.getLsbD k = ((s.getV x).getLsbD k ^^ (s.getV y).getLsbD k)) (exec_xorReg s x y)
      fun _ => BitVec.getLsbD_xor⟩

/-- Settles O23: the flag is the quotient of the sum by 256 (`carryFlag_toNat`), the result its remainder. -/
theorem addWithCarry : Obligations.AddWithCarry := fun x y s =>
  exec_setResultAndFlag_meets (exec_addReg s x y) (BitVec.toNat_add _ _) (carryFlag_toNat _ _)

/-- Settles O24: one difference and one flag, with the operands in either order. -/
theorem subtractWithBorrow : Obligations.SubtractWithBorrow := fun x y s =>
  ⟨exec_setResultAndFlag_meets (exec_sub s x y) (byte_sub_toNat _ _) (noBorrowFlag_toNat _ _),
    exec_setResultAndFlag_meets (exec_subn s x y) (byte_sub_toNat _ _) (noBorrowFlag_toNat _ _)⟩

/-- Settles O25: the bit shifted out is the remainder by 2, or the quotient by 128, of the old value. -/
theorem shiftsOutABit : Obligations.ShiftsOutABit := fun x y s =>
  ⟨exec_setResultAndFlag_meets (exec_shr s x y) (byte_shiftRight_one_toNat _) (lowBitFlag_toNat _),
    exec_setResultAndFlag_meets (exec_shl s x y) (byte_shiftLeft_one_toNat _) (highBitFlag_toNat _)⟩

end

section
/-!
PROOFS. Memory and the index register: the values given to I, the two block transfers and the three digits of BCD.
-/

namespace Sys2Proof.Machine

/-! ## Values as numbers -/

theorem byteWord_toNat (b : Byte) : (byteWord b).toNat = b.toNat := BitVec.toNat_setWidth_of_le (by decide)

/-- The glyph addresses stay far below 2^16, so nothing is cut off (42_memory_index.md R162). -/
theorem glyphAddr_lowDigit_toNat (b : Byte) : (glyphAddr (lowDigit b)).toNat = 5 * (b.toNat % 16) := by
  simp only [glyphAddr, lowDigit, Config.fontBase, BitVec.toNat_ofNat]
  omega

section
variable (b : Byte)

theorem hundreds_toNat : (hundreds b).toNat = b.toNat / 100 := by
  have := b.isLt
  simp only [hundreds, BitVec.toNat_ofNat]
  omega

theorem tens_toNat : (tens b).toNat = b.toNat / 10 % 10 := by
  simp only [tens, BitVec.toNat_ofNat]
  omega

theorem units_toNat : (units b).toNat = b.toNat % 10 := by
  simp only [units, BitVec.toNat_ofNat]
  omega

end

/-! ## Block transfers and BCD -/

section
variable {s t : State} {x : Nibble}

theorem storeRegs_keepsAllButMemory (s : State) (n : Nat) : KeepsAllButMemory s (s.storeRegs n) := by
  rw [storeRegs_eq]
  exact keepsAllButMemory_mk s _

theorem restoreRegs_keepsAllButRegs (s : State) (n : Nat) : KeepsAllButRegs s (s.restoreRegs n) := by
  rw [restoreRegs_eq]
  exact keepsAllButRegs_mk s _

/-- What any address reads after BCD: the last of the three writes to its byte, or the byte of before. -/
theorem exec_bcd_memRead (h : exec (.bcd x) s = .next t) (a : Word) :
    t.memRead a =
      if memIndex a = memIndex (s.indexed 2) then units (s.getV x)
      else if memIndex a = memIndex (s.indexed 1) then tens (s.getV x)
      else if memIndex a = memIndex (s.indexed 0) then hundreds (s.getV x) else s.memRead a := by
  rw [exec_bcd] at h
  cases h
  simp only [memWrite_memRead]

theorem exec_bcd_keepsAllButMemory (h : exec (.bcd x) s = .next t) : KeepsAllButMemory s t := by
  rw [exec_bcd] at h
  cases h
  exact keepsAllButMemory_mk s _

end

end Sys2Proof.Machine

open Sys2Proof.Machine

/-- Settles O26: each of the three is one write of I, whose value is read as a number. -/
theorem indexRegisterValues : Obligations.IndexRegisterValues := fun s =>
  ⟨fun nnn => ⟨_, exec_loadI s nnn, addrWord_toNat nnn, keepsAllButI_mk s _⟩,
    fun x => ⟨_, exec_addI s x, (BitVec.toNat_add _ _).trans (by rw [byteWord_toNat]), keepsAllButI_mk s _⟩,
    fun x => ⟨_, exec_font s x, glyphAddr_lowDigit_toNat _, keepsAllButI_mk s _⟩⟩

/-- Settles O27: STORE is a block store of `x` + 1 registers, at most 16. -/
theorem storeWritesBlock : Obligations.StoreWritesBlock := fun x s =>
  ⟨_, exec_store s x, fun _ hk => storeRegs_memRead_block s x.isLt (Nat.lt_succ_of_le hk),
    fun _ ha => storeRegs_memRead_other s fun k hk => ha k (Nat.le_of_lt_succ hk), storeRegs_keepsAllButMemory s _⟩

/-- Settles O28: RESTORE is a block load of `x` + 1 registers, at most 16. -/
theorem restoreLoadsBlock : Obligations.RestoreLoadsBlock := fun x s =>
  ⟨_, exec_restore s x, fun _ hk => restoreRegs_getV_block s x.isLt (Nat.lt_succ_of_le hk),
    fun _ hr => restoreRegs_getV_other s (Nat.lt_of_not_le hr), restoreRegs_keepsAllButRegs s _⟩

/-- Settles O29: RESTORE reads the block from the addresses STORE wrote it to, as I and memory are the same. -/
theorem restoreAfterStore : Obligations.RestoreAfterStore := by
  intro x s s' t hstore hmem hi
  obtain ⟨_, hstore', hwritten, -⟩ := storeWritesBlock x s
  cases hstore.symm.trans hstore'
  obtain ⟨u, hrestore, hloaded, -⟩ := restoreLoadsBlock x s'
  refine ⟨u, hrestore, fun r hr => ?_⟩
  have hsame : s'.memRead (s'.indexed r.toNat) = t.memRead (s.indexed r.toNat) := by
    simp only [State.memRead, State.indexed, hmem, hi]
  have hr' : BitVec.ofNat 4 r.toNat = r := (BitVec.ofNat_toNat 4 r).trans (BitVec.setWidth_eq r)
  calc u.getV r = u.getV (BitVec.ofNat 4 r.toNat) := by rw [hr']
    _ = s'.memRead (s'.indexed r.toNat) := hloaded _ hr
    _ = t.memRead (s.indexed r.toNat) := hsame
    _ = s.getV (BitVec.ofNat 4 r.toNat) := hwritten _ hr
    _ = s.getV r := by rw [hr']

/-- Settles O30: the three addresses are different bytes (`indexed_ne`), so no digit overwrites another. -/
theorem bcdStoresDigits : Obligations.BcdStoresDigits := by
  intro x s
  obtain ⟨t, ht⟩ := exec_completes (.bcd x) s
  have hread := exec_bcd_memRead ht
  have h02 : memIndex (s.indexed 0) ≠ memIndex (s.indexed 2) := indexed_ne (by decide) (by decide) (by decide)
  have h01 : memIndex (s.indexed 0) ≠ memIndex (s.indexed 1) := indexed_ne (by decide) (by decide) (by decide)
  have h12 : memIndex (s.indexed 1) ≠ memIndex (s.indexed 2) := indexed_ne (by decide) (by decide) (by decide)
  refine ⟨t, ht, ?_, ?_, ?_, fun a ha => ?_, exec_bcd_keepsAllButMemory ht⟩
  · rw [hread, if_neg h02, if_neg h01, if_pos rfl, hundreds_toNat]
  · rw [hread, if_neg h12, if_pos rfl, tens_toNat]
  · rw [hread, if_pos rfl, units_toNat]
  · rw [hread, if_neg (ha 2 (by decide)), if_neg (ha 1 (by decide)), if_neg (ha 0 (by decide))]

end

section
/-!
PROOFS. The random byte: RANDOM masks it into one register, and no other instruction looks at it.
-/

namespace Sys2Proof.Machine

variable {s t : State} {i : Instr}

/-- An instruction that does not read the random byte runs alike with any other (43_random.md R176). -/
theorem exec_with_rnd (b : Byte) (hi : readsRnd i = false) (h : exec i s = .next t) :
    exec i { s with rnd := b } = .next { t with rnd := b } := by
  cases i
  case random => cases hi
  case waitKey x =>
    obtain ⟨hk, rfl⟩ | ⟨hk, rfl⟩ := exec_waitKey_cases h
    · exact exec_waitKey_none x hk
    · exact exec_waitKey_some x hk
  case call nnn =>
    obtain ⟨hl, rfl⟩ | ⟨hl, rfl⟩ := exec_call_cases h
    · exact exec_call_of_lt (s := { s with rnd := b }) nnn hl
    · exact exec_call_full nnn hl
  case ret =>
    obtain ⟨hl, rfl⟩ | ⟨hl, rfl⟩ := exec_ret_cases h
    · exact exec_ret_of_pos (s := { s with rnd := b }) hl
    · exact exec_ret_empty hl
  case store => cases h; rw [exec_store, storeRegs_with_rnd]
  case restore => cases h; rw [exec_restore, restoreRegs_with_rnd]
  all_goals cases h; rfl

end Sys2Proof.Machine

open Sys2Proof.Machine

/-- Settles O55, by `exec_with_rnd`: each branch that an instruction but RANDOM takes is chosen without `rnd`. -/
theorem rndReachesOnlyRandom : Obligations.RndReachesOnlyRandom :=
  fun _ _ _ b => exec_with_rnd b

/-- Settles O31: one write of Vx, of a byte that masking with `nn` once more does not change. -/
theorem randomIsMasked : Obligations.RandomIsMasked := fun x nn s =>
  have hmask : s.rnd &&& nn &&& nn = s.rnd &&& nn := by rw [BitVec.and_assoc, BitVec.and_self]
  have ⟨t, ht, ⟨hv, hm⟩, hregs, hrest⟩ :=
    exec_setV_meets (fun r => r = s.rnd &&& nn ∧ r &&& nn = r) (exec_random s x nn) ⟨rfl, hmask⟩
  ⟨t, ht, hv, hm, hregs, hrest⟩

end

section
/-!
PROOFS. The display: which instructions and events write it, and the draw as a set of pixels that are inverted.
-/

namespace Sys2Proof.Machine

/-! ## The writers of the display -/

section
variable {s t : State} {i : Instr}

theorem writesDisplay_iff : writesDisplay i = true ↔ i = .clear ∨ ∃ x y n, i = .draw x y n := by
  constructor
  · intro hi
    cases i
    case clear => exact .inl rfl
    case draw x y n => exact .inr ⟨x, y, n, rfl⟩
    all_goals cases hi
  · rintro (rfl | ⟨x, y, n, rfl⟩) <;> rfl

/-- The framebuffer and its update output are written by CLEAR and DRAW alone (44_display.md R182, R183). -/
theorem exec_keepsDisplay (hi : writesDisplay i = false) (h : exec i s = .next t) :
    KeepsDisplay s t ∧ t.fbUpdated = s.fbUpdated := by
  cases i
  case clear | draw => cases hi
  case ret => obtain ⟨_, rfl⟩ | ⟨_, rfl⟩ := exec_ret_cases h <;> exact ⟨rfl, rfl⟩
  case call => obtain ⟨_, rfl⟩ | ⟨_, rfl⟩ := exec_call_cases h <;> exact ⟨rfl, rfl⟩
  case waitKey => obtain ⟨_, rfl⟩ | ⟨_, rfl⟩ := exec_waitKey_cases h <;> exact ⟨rfl, rfl⟩
  case store => cases h; rw [storeRegs_eq]; exact ⟨rfl, rfl⟩
  case restore => cases h; rw [restoreRegs_eq]; exact ⟨rfl, rfl⟩
  all_goals cases h; exact ⟨rfl, rfl⟩

/-- CLEAR and DRAW report the update whether or not a pixel changes (44_display.md R183). -/
theorem exec_fbUpdated_of_writesDisplay (hi : writesDisplay i = true) (h : exec i s = .next t) : t.fbUpdated = true := by
  obtain rfl | ⟨x, y, n, rfl⟩ := writesDisplay_iff.1 hi <;> (cases h; rfl)

/-- The start of a Step clears the output, so after the instruction it says which kind ran. -/
theorem exec_fbUpdated_iff (hs : s.fbUpdated = false) (h : exec i s = .next t) :
    t.fbUpdated = true ↔ writesDisplay i = true := by
  cases hi : writesDisplay i
  case true => exact iff_of_true (exec_fbUpdated_of_writesDisplay hi h) rfl
  case false => rw [(exec_keepsDisplay hi h).2, hs]

theorem tick_fb (s : State) : s.tick.fb = s.fb := by
  cases he : s.enabled
  case false => rw [tick_of_not_enabled he]
  case true => rw [tick_of_enabled he]; rfl

/-- A Step that changes the framebuffer ran CLEAR or DRAW: it was not frozen, and its word was not unknown. -/
theorem stepEvent_fb_ne {keys : Word} {rnd : Byte} (h : stepEvent keys rnd s = .next t) (hne : t.fb ≠ s.fb) :
    ∃ i, decode s.fetchWord = .ok i ∧ writesDisplay i = true := by
  obtain ⟨_, _, rfl⟩ | ⟨_, i, hd, hexec⟩ | ⟨_, _, _, rfl⟩ := stepEvent_cases h
  · exact absurd rfl hne
  · refine ⟨i, hd, ?_⟩
    by_contra hi
    exact hne (exec_keepsDisplay (Bool.eq_false_of_not_eq_true hi) hexec).1
  · exact absurd (unknownOpcode_fb _) hne

end

/-! ## What one DRAW does -/

section
variable {s t : State} {x y n : Nibble}

/-- A pixel of the screen is one of those DRAW targets exactly when the sprite covers it. -/
theorem pixelIndex_mem_drawPixels {px py : Nat} (hpx : px < 64) (hpy : py < 32) :
    pixelIndex px py ∈ s.drawPixels x y n ↔ s.spriteCovers x y n px py = true := by
  rw [mem_drawPixels]
  constructor
  · rintro ⟨qx, qy, hqx, -, hq, hcov⟩
    obtain ⟨rfl, rfl⟩ := pixelIndex_inj hpx hqx hq
    exact hcov
  · exact fun hcov => ⟨px, py, hpx, hpy, rfl, hcov⟩

theorem draw_fb_getLsbD (h : exec (.draw x y n) s = .next t) (p : Nat) :
    t.fb.getLsbD p = (s.fb.getLsbD p ^^ decide (p ∈ s.drawPixels x y n)) := by
  cases h
  by_cases hp : p < 2048
  · exact blit_getLsbD s.fb s x y n hp
  · have hout : p ∉ s.drawPixels x y n := fun hmem => hp (drawPixels_lt hmem)
    rw [BitVec.getLsbD_of_ge _ _ (Nat.le_of_not_lt hp), BitVec.getLsbD_of_ge _ _ (Nat.le_of_not_lt hp), decide_eq_false hout]
    rfl

theorem draw_pixel (h : exec (.draw x y n) s = .next t) {px py : Nat} (hpx : px < 64) (hpy : py < 32) :
    t.pixel px py = (s.pixel px py ^^ s.spriteCovers x y n px py) := by
  unfold State.pixel
  rw [draw_fb_getLsbD h, Bool.decide_congr (pixelIndex_mem_drawPixels hpx hpy), Bool.decide_eq_true]

/-- A pixel is turned off exactly when it was on and DRAW targets it. -/
theorem draw_turnedOff_iff (h : exec (.draw x y n) s = .next t) (p : Nat) :
    s.fb.getLsbD p = true ∧ t.fb.getLsbD p = false ↔ p ∈ s.drawPixels x y n ∧ s.fb.getLsbD p = true := by
  rw [draw_fb_getLsbD h, and_comm]
  refine and_congr_left fun hon => ?_
  simp [hon]

theorem draw_vf (h : exec (.draw x y n) s = .next t) :
    t.getV vf = flagByte ((s.drawPixels x y n).any fun p => s.fb.getLsbD p) := by
  cases h
  rw [setV_getV_same, blit_collision]

/-- The collision of R180. -/
theorem draw_vf_eq_one (h : exec (.draw x y n) s = .next t)
    (hon : ∃ p ∈ s.drawPixels x y n, s.fb.getLsbD p = true) : t.getV vf = 1 := by
  rw [draw_vf h, List.any_eq_true.2 hon]
  rfl

theorem draw_vf_eq_zero (h : exec (.draw x y n) s = .next t)
    (hoff : ∀ p ∈ s.drawPixels x y n, ¬ s.fb.getLsbD p = true) : t.getV vf = 0 := by
  rw [draw_vf h, List.any_eq_false.2 hoff]
  rfl

/-! ## How many pixels DRAW changes -/

/-- Columns number the bits of a sprite byte from the other end, so there are as many pixels as bits. -/
theorem rowPixels_length (x0 py : Nat) (b : Byte) :
    (rowPixels x0 py b).length = (List.range 8).countP (fun k => b.getLsbD k) := by
  have hrev : (List.range 8).map (fun col => 7 - col) = (List.range 8).reverse := by decide
  calc (rowPixels x0 py b).length
    _ = (List.range 8).countP (fun col => b.getLsbD (7 - col)) := by
        rw [rowPixels, List.length_map, ← List.countP_eq_length_filter]
    _ = ((List.range 8).map (fun col => 7 - col)).countP (fun k => b.getLsbD k) := List.countP_map.symm
    _ = (List.range 8).countP (fun k => b.getLsbD k) := by rw [hrev, List.countP_reverse]

theorem spritePixels_length (x0 y0 row : Nat) (bs : List Byte) :
    (spritePixels x0 y0 row bs).length = (bs.map fun b => (List.range 8).countP (fun k => b.getLsbD k)).sum := by
  induction bs generalizing row with
  | nil => rfl
  | cons b bs ih => rw [spritePixels, List.length_append, rowPixels_length, ih, List.map_cons, List.sum_cons]

theorem drawPixels_length (s : State) (x y n : Nibble) : (s.drawPixels x y n).length = s.spriteBitCount n := by
  rw [State.drawPixels, spritePixels_length, State.spriteBytes, List.map_map]
  rfl

/-- The members of a list without repetitions, counted in a range that holds them all, are as many as the list is long. -/
theorem countP_mem_range {ps : List Nat} {m : Nat} (hnd : ps.Nodup) (hlt : ∀ p ∈ ps, p < m) :
    (List.range m).countP (fun p => decide (p ∈ ps)) = ps.length := by
  rw [List.countP_eq_length_filter]
  refine List.Perm.length_eq ((List.perm_ext_iff_of_nodup (List.nodup_range.filter _) hnd).2 fun p => ?_)
  rw [List.mem_filter, List.mem_range, decide_eq_true_iff]
  exact and_iff_right_of_imp (hlt p)

theorem draw_changedCount (h : exec (.draw x y n) s = .next t) :
    (List.range 2048).countP (fun p => t.fb.getLsbD p != s.fb.getLsbD p) = s.spriteBitCount n := by
  have hchanged (p : Nat) : (t.fb.getLsbD p != s.fb.getLsbD p) = decide (p ∈ s.drawPixels x y n) := by
    rw [draw_fb_getLsbD h, bne, Bool.beq_comm]
    cases s.fb.getLsbD p <;> simp
  simp only [hchanged]
  rw [countP_mem_range (drawPixels_nodup s x y n) (fun _ => drawPixels_lt), drawPixels_length]

/-! ## Two DRAWs of one sprite at one place -/

/-- A pixel that is inverted twice is as it was. -/
theorem draw_draw_fb {s' u : State} (h : exec (.draw x y n) s = .next t) (hfb : s'.fb = t.fb)
    (hps : s'.drawPixels x y n = s.drawPixels x y n) (h' : exec (.draw x y n) s' = .next u) : u.fb = s.fb := by
  refine BitVec.eq_of_getLsbD_eq fun p _ => ?_
  rw [draw_fb_getLsbD h', hfb, hps, draw_fb_getLsbD h, Bool.xor_assoc, Bool.xor_self, Bool.xor_false]

/-- A pixel that the first DRAW turned on is one of its pixels, so the second finds it on. -/
theorem draw_turnedOn_mem (h : exec (.draw x y n) s = .next t) {p : Nat} (hon : t.fb.getLsbD p = true)
    (hoff : s.fb.getLsbD p = false) : p ∈ s.drawPixels x y n := by
  rw [draw_fb_getLsbD h, hoff, Bool.false_xor] at hon
  exact of_decide_eq_true hon

/-- Outside the 8 by `n` window the sprite covers nothing. -/
theorem spriteCovers_outside {px py : Nat}
    (hout : 8 ≤ (px + 64 - (s.getV x).toNat % 64) % 64 ∨ n.toNat ≤ (py + 32 - (s.getV y).toNat % 32) % 32) :
    s.spriteCovers x y n px py = false := by
  unfold State.spriteCovers
  obtain hx | hy := hout
  · simp [Nat.not_lt.2 hx]
  · simp [Nat.not_lt.2 hy]

end

end Sys2Proof.Machine

open Sys2Proof.Machine

/-- Settles O32: the pixels DRAW targets are those the sprite covers (`mem_drawPixels`), for the inversion and for VF. -/
theorem drawInvertsCoveredPixels : Obligations.DrawInvertsCoveredPixels := by
  intro x y n s
  obtain ⟨t, ht⟩ := exec_completes (.draw x y n) s
  refine ⟨t, ht, fun _ _ => draw_pixel ht, ?_, ?_, exec_fbUpdated_of_writesDisplay rfl ht, ?_⟩
  · rintro ⟨px, py, hpx, hpy, hcov, hon⟩
    exact draw_vf_eq_one ht ⟨_, (pixelIndex_mem_drawPixels hpx hpy).2 hcov, hon⟩
  · intro hoff
    refine draw_vf_eq_zero ht fun p hp => ?_
    obtain ⟨px, py, hpx, hpy, rfl, hcov⟩ := mem_drawPixels.1 hp
    exact Bool.eq_false_iff.1 (hoff px py hpx hpy hcov)
  · cases ht
    exact ⟨rfl, fun _ hr => setV_getV_other _ _ hr, rfl, rfl, fun _ => rfl, ⟨rfl, rfl⟩, ⟨rfl, rfl⟩, ⟨rfl, rfl⟩,
      ⟨rfl, rfl, rfl, rfl, rfl⟩⟩

/-- Settles O33: (a) and (b) as both DRAWs target the same pixels (`drawPixels_congr`), (c) by `draw_changedCount`, (d) and (e) as
only the pixels the sprite covers are inverted. -/
theorem blitLaws : Obligations.BlitLaws := by
  constructor
  · intro x y n s s' t ht hfb hx hy hi hbytes
    have hps := drawPixels_congr hx hy hi hbytes
    obtain ⟨u, hu⟩ := exec_completes (.draw x y n) s'
    refine ⟨u, hu, draw_draw_fb ht hfb hps hu, ?_⟩
    rintro ⟨p, hon, hoff⟩
    exact draw_vf_eq_one hu ⟨p, hps ▸ draw_turnedOn_mem ht hon hoff, hfb ▸ hon⟩
  · intro x y n s t ht
    refine ⟨draw_changedCount ht, fun px py hpx hpy hout => ?_, fun ⟨p, hp⟩ => ?_, fun hnone => ?_⟩
    · rw [draw_pixel ht hpx hpy, spriteCovers_outside hout, Bool.xor_false]
    · exact draw_vf_eq_one ht ⟨p, (draw_turnedOff_iff ht p).1 hp⟩
    · exact draw_vf_eq_zero ht fun p hp hon => hnone ⟨p, (draw_turnedOff_iff ht p).2 ⟨hp, hon⟩⟩

/-- Settles O48: a Tick and a change of `paused` keep the framebuffer, and a Step changes it by CLEAR or DRAW alone. -/
theorem displayWriters : Obligations.DisplayWriters := by
  intro e s t h hne
  cases e with
  | load rom => exact .inl ⟨rom, rfl⟩
  | step keys rnd =>
    obtain ⟨i, hd, hi⟩ := stepEvent_fb_ne h hne
    exact .inr ⟨keys, rnd, i, rfl, hd, writesDisplay_iff.1 hi⟩
  | tick => cases h; exact absurd (tick_fb s) hne
  | pause level => cases h; exact absurd rfl hne

/-- Settles O49: the start of the Step clears the output, an unknown word leaves it so, and an instruction sets it exactly when it
writes the display (`exec_fbUpdated_iff`). -/
theorem updateOutputFollowsStep : Obligations.UpdateOutputFollowsStep := by
  intro s t keys rnd _ hp h
  obtain ⟨_, hp', _⟩ | ⟨_, i, hd, hexec⟩ | ⟨_, e, hd, rfl⟩ := stepEvent_cases h
  · rw [hp] at hp'; cases hp'
  · simp only [exec_fbUpdated_iff rfl hexec, writesDisplay_iff, hd, Except.ok.injEq]
  · simp [hd]

end

section
/-!
PROOFS. The timers: the three moves between a register and a timer, and that no other instruction reads or writes DT or ST.
-/

namespace Sys2Proof.Machine

/-! ## The timer moves -/

/-- The output `sound` is 1 exactly while ST is above 0 (60_exceptions.md R226). -/
theorem sound_iff (s : State) : s.sound = true ↔ 0 < s.st.toNat := decide_eq_true_iff

/-- What a write of a timer leaves alone: everything but DT and ST. -/
def KeepsAllButTimers (s t : State) : Prop :=
  KeepsRegs s t ∧ t.i = s.i ∧ t.pc = s.pc ∧ KeepsMemory s t ∧ KeepsStack s t ∧ KeepsDisplay s t ∧ KeepsRunState s t ∧
    KeepsInputs s t ∧ KeepsOutputs s t

theorem keepsAllButTimers_mk (s : State) (a b : Byte) : KeepsAllButTimers s { s with dt := a, st := b } :=
  ⟨fun _ => rfl, rfl, rfl, fun _ => rfl, ⟨rfl, rfl⟩, rfl, ⟨rfl, rfl⟩, ⟨rfl, rfl, rfl, rfl, rfl⟩, ⟨rfl, rfl⟩⟩

/-! ## The other instructions do not look at the timers -/

/-- The instructions that read or write a timer (45_timers.md R190 to R192). -/
def accessesTimers : Instr → Bool
  | .getDelay _ | .setDelay _ | .setSound _ => true
  | _ => false

section
variable {s t : State} {i : Instr}

theorem accessesTimers_iff : accessesTimers i = true ↔ ∃ x, i = .getDelay x ∨ i = .setDelay x ∨ i = .setSound x := by
  constructor
  · intro hi
    cases i
    case getDelay x => exact ⟨x, .inl rfl⟩
    case setDelay x => exact ⟨x, .inr (.inl rfl)⟩
    case setSound x => exact ⟨x, .inr (.inr rfl)⟩
    all_goals cases hi
  · rintro ⟨x, rfl | rfl | rfl⟩ <;> rfl

/-- An instruction that accesses no timer runs alike whatever the two hold (45_timers.md R193). -/
theorem exec_with_timers (a b : Byte) (hi : accessesTimers i = false) (h : exec i s = .next t) :
    exec i { s with dt := a, st := b } = .next { t with dt := a, st := b } := by
  cases i
  case getDelay | setDelay | setSound => cases hi
  case waitKey x =>
    obtain ⟨hk, rfl⟩ | ⟨hk, rfl⟩ := exec_waitKey_cases h
    · exact exec_waitKey_none x hk
    · exact exec_waitKey_some x hk
  case call nnn =>
    obtain ⟨hl, rfl⟩ | ⟨hl, rfl⟩ := exec_call_cases h
    · exact exec_call_of_lt (s := { s with dt := a, st := b }) nnn hl
    · exact exec_call_full nnn hl
  case ret =>
    obtain ⟨hl, rfl⟩ | ⟨hl, rfl⟩ := exec_ret_cases h
    · exact exec_ret_of_pos (s := { s with dt := a, st := b }) hl
    · exact exec_ret_empty hl
  case store => cases h; rw [exec_store, storeRegs_with_st { s with dt := a }, storeRegs_with_dt]
  case restore => cases h; rw [exec_restore, restoreRegs_with_st { s with dt := a }, restoreRegs_with_dt]
  all_goals cases h; rfl

/-- With the timers as they are, `exec_with_timers` says what they are afterwards. -/
theorem exec_keepsTimers (hi : accessesTimers i = false) (h : exec i s = .next t) : KeepsTimers s t := by
  have hsame : Host.Outcome.next t = .next { t with dt := s.dt, st := s.st } :=
    h.symm.trans (exec_with_timers s.dt s.st hi h)
  injection hsame with ht
  exact ⟨(congrArg State.dt ht :), (congrArg State.st ht :)⟩

theorem exec_with_dt (b : Byte) (hi : accessesTimers i = false) (h : exec i s = .next t) :
    exec i { s with dt := b } = .next { t with dt := b } := by
  obtain ⟨-, hst⟩ := exec_keepsTimers hi h
  rw [exec_with_timers b s.st hi h, ← hst]

theorem exec_with_st (b : Byte) (hi : accessesTimers i = false) (h : exec i s = .next t) :
    exec i { s with st := b } = .next { t with st := b } := by
  obtain ⟨hdt, -⟩ := exec_keepsTimers hi h
  rw [exec_with_timers s.dt b hi h, ← hdt]

end

end Sys2Proof.Machine

open Sys2Proof.Machine

/-- Settles O34: one write of Vx, of DT, or of ST, from which `sound` follows (`sound_iff`). -/
theorem timerMoves : Obligations.TimerMoves := fun x s =>
  ⟨exec_setV_meets (· = s.dt) (exec_getDelay s x) rfl,
    ⟨_, exec_setDelay s x, rfl, rfl, keepsAllButTimers_mk s _ _⟩,
    ⟨_, exec_setSound s x, rfl, sound_iff _, rfl, keepsAllButTimers_mk s _ _⟩⟩

/-- Settles O51: an instruction that accesses no timer keeps both and runs alike with others (`exec_keepsTimers`, `exec_with_dt`,
`exec_with_st`); each of the three that do is one write, of Vx or of the timer it names. -/
theorem timerAccess : Obligations.TimerAccess := by
  intro i s t b h
  cases hi : accessesTimers i
  case false =>
    obtain ⟨hdt, hst⟩ := exec_keepsTimers hi h
    refine ⟨fun _ => hdt, fun _ => hst, fun _ _ => exec_with_dt b hi h, fun _ => exec_with_st b hi h, ?_, ?_⟩
    · rintro ⟨x, rfl⟩; cases hi
    · rintro ⟨x, rfl⟩; cases hi
  case true =>
    obtain ⟨x, rfl | rfl | rfl⟩ := accessesTimers_iff.1 hi <;> cases h
    · exact ⟨fun _ => rfl, fun _ => rfl, fun hget _ => absurd rfl (hget x), fun _ => rfl, nofun, nofun⟩
    · exact ⟨fun hset => absurd rfl (hset x), fun _ => rfl, fun _ hset => absurd rfl (hset x), fun _ => rfl,
        fun _ => rfl, nofun⟩
    · exact ⟨fun _ => rfl, fun hset => absurd rfl (hset x), fun _ _ => rfl, fun hset => absurd rfl (hset x),
        nofun, fun _ => rfl⟩

end

section
/-!
PROOFS. The key wait: with a key down it writes the number of a pressed key, and with none the Step only comes back to its own
instruction.
-/

namespace Sys2Proof.Machine

variable {s : State} {x : Nibble}

/-- A key number fits into a register: there are 16 keys (10_state.md R34). -/
theorem keySelect_byte_toNat {keys : Word} (h : keys ≠ 0) : (BitVec.ofNat 8 (keySelect keys)).toNat = keySelect keys := by
  obtain ⟨hlt, -⟩ := keySelect_pressed h
  exact (BitVec.toNat_ofNat _ _).trans (Nat.mod_eq_of_lt (by omega))

/-- A waiting Step is its own start with PC put back: the fetch advance that WAIT_KEY takes back is the one of this Step
(46_key_wait.md R200). -/
theorem stepEvent_waitKey_none (rnd : Byte) (hm : s.mode = .active) (hp : s.paused = false)
    (hw : s.fetchWord = encode (.waitKey x)) : stepEvent 0 rnd s = .next ((s.beginStep 0 rnd).setPc s.pc) := by
  have hd : decode s.fetchWord = .ok (.waitKey x) := by rw [hw, decode_encode]
  rw [stepEvent_ok 0 rnd hm hp hd, exec_waitKey_none x rfl, beginStep_fetchAddr]

end Sys2Proof.Machine

open Sys2Proof.Machine

/-- Settles O35: one write of Vx, of the key that `KEY_SELECT` answers, which is pressed (`keySelect_pressed`). -/
theorem waitKeyCompletes : Obligations.WaitKeyCompletes := by
  intro x s hk
  have hsel : (BitVec.ofNat 8 (keySelect s.keys)).toNat < 16 ∧
      s.keys.getLsbD (BitVec.ofNat 8 (keySelect s.keys)).toNat = true := by
    rw [keySelect_byte_toNat hk]
    exact keySelect_pressed hk
  obtain ⟨t, ht, ⟨hlt, hdown⟩, hregs, hrest⟩ :=
    exec_setV_meets (fun r => r.toNat < 16 ∧ s.keys.getLsbD r.toNat = true) (exec_waitKey_some x hk) hsel
  exact ⟨t, ht, hlt, hdown, hregs, hrest⟩

/-- Settles O36: the start of the Step writes only PC, the inputs and the outputs, and PC is put back (`stepEvent_waitKey_none`). -/
theorem waitKeyWaits : Obligations.WaitKeyWaits := fun _ _ rnd hm hp hw =>
  ⟨_, stepEvent_waitKey_none rnd hm hp hw, rfl, fun _ => rfl, rfl, fun _ => rfl, ⟨rfl, rfl⟩, ⟨rfl, rfl⟩, rfl, ⟨rfl, rfl⟩,
    rfl, rfl, rfl⟩

end

section
/-!
PROOFS. Taking an error: an unknown word under either policy, and the two stack errors, the only way an instruction changes MODE or
ERR.
-/

namespace Sys2Proof.Machine

variable {s t : State} {i : Instr}

/-! ## Unknown words -/

/-- The row of every instruction is one of the map; operands do not matter to it (30_encoding.md R96). -/
theorem row_mem_opcodeMap (i : Instr) : i.row ∈ opcodeMap := by
  cases i
  all_goals exact List.mem_of_elem_eq_true rfl

theorem wellFormedWord_of_decode {w : Word} (h : decode w = .ok i) : wellFormedWord w = true :=
  List.any_eq_true.2 ⟨i.row, row_mem_opcodeMap i, encode_of_decode h ▸ row_accepts_encode i⟩

/-- An enabled Step on an unknown word leaves it to the policy (30_encoding.md R97, 60_exceptions.md R211, R222). -/
theorem stepEvent_unknownWord (keys : Word) (rnd : Byte) (hm : s.mode = .active) (hp : s.paused = false)
    (hw : wellFormedWord s.fetchWord = false) :
    stepEvent keys rnd s = .next ((s.beginStep keys rnd).unknownOpcode s.fetchWord) := by
  rw [stepEvent_enabled keys rnd hm hp]
  cases hd : decode s.fetchWord with
  | error e => exact runInstruction_error keys rnd hd
  | ok i => cases hw.symm.trans (wellFormedWord_of_decode hd)

theorem stepEvent_unknownWord_halt (keys : Word) (rnd : Byte) (hm : s.mode = .active) (hp : s.paused = false)
    (hw : wellFormedWord s.fetchWord = false) (hpol : s.policy = .halt) :
    stepEvent keys rnd s = .next ((s.beginStep keys rnd).raise .unknownOpcode s.fetchWord) := by
  rw [stepEvent_unknownWord keys rnd hm hp hw, unknownOpcode_halt (s := s.beginStep keys rnd) _ hpol]

theorem stepEvent_unknownWord_skip (keys : Word) (rnd : Byte) (hm : s.mode = .active) (hp : s.paused = false)
    (hw : wellFormedWord s.fetchWord = false) (hpol : s.policy = .skip) :
    stepEvent keys rnd s =
      .next { s.beginStep keys rnd with report := some ⟨.unknownOpcode, s.pc, s.fetchWord⟩ } := by
  rw [stepEvent_unknownWord keys rnd hm hp hw, unknownOpcode_skip (s := s.beginStep keys rnd) _ hpol, beginStep_fetchAddr]

/-! ## Stack errors -/

theorem usesStack_iff : usesStack i = true ↔ (∃ nnn, i = .call nnn) ∨ i = .ret := by
  constructor
  · intro hi
    cases i
    case call nnn => exact .inl ⟨nnn, rfl⟩
    case ret => exact .inr rfl
    all_goals cases hi
  · rintro (⟨nnn, rfl⟩ | rfl) <;> rfl

/-- An instruction that changes MODE or ERR is a CALL on a full stack or a RETURN on an empty one, and all it does is to take that
error (60_exceptions.md R212, R213). -/
theorem exec_changesRunState_cases (h : exec i s = .next t) (hne : ¬ KeepsRunState s t) :
    (s.sp.val = 16 ∧ (∃ nnn, i = .call nnn) ∧ t = s.raise .stackOverflow (encode i)) ∨
    (s.sp.val = 0 ∧ i = .ret ∧ t = s.raise .stackUnderflow (encode i)) := by
  have hi : usesStack i = true := by
    by_contra hi
    exact hne (exec_keepsRunState (Bool.eq_false_of_not_eq_true hi) h)
  obtain ⟨nnn, rfl⟩ | rfl := usesStack_iff.1 hi
  · obtain ⟨_, rfl⟩ | ⟨hsp, rfl⟩ := exec_call_cases h
    · exact absurd ⟨rfl, rfl⟩ hne
    · exact .inl ⟨hsp, ⟨nnn, rfl⟩, rfl⟩
  · obtain ⟨_, rfl⟩ | ⟨hsp, rfl⟩ := exec_ret_cases h
    · exact absurd ⟨rfl, rfl⟩ hne
    · exact .inr ⟨hsp, rfl, rfl⟩

end Sys2Proof.Machine

open Sys2Proof.Machine

/-- Settles O10: the Step is its own start and then the error (`stepEvent_unknownWord_halt`), whose address is the old PC. -/
theorem unknownWordHalts : Obligations.UnknownWordHalts := by
  intro s keys rnd hm hp hw hpol
  have herr : ((s.beginStep keys rnd).raise .unknownOpcode s.fetchWord).err = ⟨.unknownOpcode, s.pc, s.fetchWord⟩ := by
    rw [raise_err, beginStep_fetchAddr]
  exact ⟨_, stepEvent_unknownWord_halt keys rnd hm hp hw hpol, rfl, herr, rfl, fun _ => rfl, rfl, fun _ => rfl, ⟨rfl, rfl⟩,
    ⟨rfl, rfl⟩, rfl, rfl, rfl, rfl, rfl, rfl, rfl, rfl⟩

/-- Settles O11: the Step is its own start and then the report (`stepEvent_unknownWord_skip`). -/
theorem unknownWordSkipped : Obligations.UnknownWordSkipped := fun _ keys rnd hm hp hw hpol =>
  ⟨_, stepEvent_unknownWord_skip keys rnd hm hp hw hpol, rfl, ⟨rfl, rfl⟩, rfl, fun _ => rfl, rfl, fun _ => rfl, ⟨rfl, rfl⟩,
    ⟨rfl, rfl⟩, rfl, rfl, rfl, rfl, rfl, rfl, rfl⟩

/-- Settles O54: the two cases of `exec_changesRunState_cases`, each one taking of an error. -/
theorem onlyStackErrorsHalt : Obligations.OnlyStackErrorsHalt := by
  intro i s t h hne
  obtain ⟨hsp, hcall, rfl⟩ | ⟨hsp, hret, rfl⟩ := exec_changesRunState_cases h hne
  · exact ⟨rfl, rfl, rfl, rfl, .inl ⟨rfl, hsp, hcall⟩⟩
  · exact ⟨rfl, rfl, rfl, rfl, .inr ⟨rfl, hsp, hret⟩⟩

/-- Settles O16: on a full and on an empty stack the instruction is the taking of its error, which writes ERR and MODE alone. -/
theorem stackErrorsHalt : Obligations.StackErrorsHalt :=
  ⟨fun nnn s hsp => ⟨_, exec_call_full nnn hsp, rfl, rfl, rfl, rfl, keepsAllButRunState_mk s _ _⟩,
    fun s hsp => ⟨_, exec_ret_empty hsp, rfl, rfl, rfl, rfl, keepsAllButRunState_mk s _ _⟩⟩

end

section
/-!
PROOFS. Ticks and the output `sound`, and where Steps and Ticks do not occur: Halted, Unloaded and paused.
-/

namespace Sys2Proof.Machine

variable {s t : State} {i : Instr}

/-! ## Ticks -/

theorem run_cons_of_next {e : Event} {more : List Event} {s' : State} (h : event e s = .next s') :
    run (e :: more) s = run more s' := by
  rw [run, h]

/-- A run of Ticks is the Tick repeated. -/
theorem run_replicate_tick (n : Nat) (s : State) : run (List.replicate n .tick) s = .next (State.tick^[n] s) := by
  induction n generalizing s with
  | zero => rfl
  | succ n ih => rw [List.replicate_succ, run_cons_of_next (s' := s.tick) rfl, ih, Function.iterate_succ_apply]

/-- After `n` Ticks `sound` is 1 exactly when ST was above `n` (60_exceptions.md R226). -/
theorem decay_sound_iff (s : State) (n : Nat) : (s.decay n).sound = true ↔ n < s.st.toNat := by
  rw [sound_iff, decay_st, decayed_toNat, Nat.sub_pos_iff_lt]

/-! ## What changes the output `sound` -/

theorem sound_eq_of_st_eq (h : t.st = s.st) : t.sound = s.sound := by
  unfold State.sound
  rw [h]

/-- ST is written by SET_SOUND alone (45_timers.md R193). -/
theorem exec_st_ne (h : exec i s = .next t) (hne : t.st ≠ s.st) : ∃ x, i = .setSound x := by
  obtain ⟨-, hst, -⟩ := timerAccess i s t 0 h
  by_contra hi
  exact hne (hst fun x hx => hi ⟨x, hx⟩)

/-- A Step that changes ST ran SET_SOUND: it was not frozen, and its word was not unknown. -/
theorem stepEvent_st_ne {keys : Word} {rnd : Byte} (h : stepEvent keys rnd s = .next t) (hne : t.st ≠ s.st) :
    ∃ x, decode s.fetchWord = .ok (.setSound x) := by
  obtain ⟨_, _, rfl⟩ | ⟨_, i, hd, hexec⟩ | ⟨_, _, _, rfl⟩ := stepEvent_cases h
  · exact absurd rfl hne
  · obtain ⟨x, rfl⟩ := exec_st_ne hexec hne
    exact ⟨x, hd⟩
  · exact absurd (unknownOpcode_st _) hne

/-! ## Where no Step and no Tick occurs -/

/-- A Step occurs in MODE Active alone (60_exceptions.md R220, 70_reset_and_hazards.md R255). -/
theorem mode_active_of_stepEvent {keys : Word} {rnd : Byte} (h : stepEvent keys rnd s = .next t) : s.mode = .active := by
  obtain ⟨hm, _⟩ | ⟨he, _⟩ | ⟨he, _⟩ := stepEvent_cases h
  · exact hm
  · exact ((enabled_iff s).1 he).1
  · exact ((enabled_iff s).1 he).1

theorem not_enabled_of_mode_ne (hm : s.mode ≠ .active) : s.enabled = false :=
  Bool.eq_false_of_not_eq_true fun he => hm ((enabled_iff s).1 he).1

theorem not_enabled_of_paused (hp : s.paused = true) : s.enabled = false := by
  rw [State.enabled, hp, Bool.not_true, Bool.and_false]

theorem event_tick_of_not_enabled (he : s.enabled = false) : event .tick s = .next s :=
  congrArg Host.Outcome.next (tick_of_not_enabled he)

end Sys2Proof.Machine

open Sys2Proof.Machine

/-- Settles O37: an enabled Tick lowers both timers by 1 (`tick_of_enabled`), any other leaves the state as it is. -/
theorem tickDecrementsTimers : Obligations.TickDecrementsTimers := by
  intro s
  refine ⟨s.tick, rfl, fun he => ?_, fun hne => ?_⟩
  · rw [tick_of_enabled ((enabled_iff s).2 he)]
    exact ⟨decayed_toNat 1 _, decayed_toNat 1 _, decay_sound_iff s 1, keepsAllButTimers_mk s _ _⟩
  · exact tick_of_not_enabled (Bool.eq_false_of_not_eq_true fun he => hne ((enabled_iff s).1 he))

/-- Settles O38: the run is the Tick repeated (`run_replicate_tick`), whose closed form is `decay`. -/
theorem timersRunDown : Obligations.TimersRunDown := by
  intro n s hm hp
  have hrun : run (List.replicate n .tick) s = .next (s.decay n) := by
    rw [run_replicate_tick, decay_eq_iterate_tick ((enabled_iff s).2 ⟨hm, hp⟩)]
  exact ⟨_, hrun, decayed_toNat n _, decayed_toNat n _, decay_sound_iff s n⟩

/-- Settles O52: `sound` follows ST, which a change of `paused` keeps, and a Step changes by SET_SOUND alone
(`stepEvent_st_ne`). -/
theorem soundFollowsTimer : Obligations.SoundFollowsTimer := by
  refine ⟨sound_iff, fun e s t h hne => ?_⟩
  cases e with
  | load rom => exact .inl ⟨rom, rfl⟩
  | step keys rnd =>
    obtain ⟨x, hd⟩ := stepEvent_st_ne h (mt sound_eq_of_st_eq hne)
    exact .inr (.inr ⟨keys, rnd, x, rfl, hd⟩)
  | tick => exact .inr (.inl rfl)
  | pause level => cases h; exact absurd rfl hne

/-- Settles O39: a Step that leads to a next state starts in Active (`mode_active_of_stepEvent`), and Load is not bound to a mode. -/
theorem onlyLoadLeavesHalt : Obligations.OnlyLoadLeavesHalt := by
  intro s hmode
  have hm : s.mode ≠ .active := by obtain h | h := hmode <;> rw [h] <;> nofun
  have he : s.enabled = false := not_enabled_of_mode_ne hm
  refine ⟨fun keys rnd t h => hm (mode_active_of_stepEvent h), fun t h => ?_, event_tick_of_not_enabled he, fun rom hlen => ?_⟩
  · rw [step_not_enabled he] at h
    exact hm (mode_active_of_stepEvent h)
  · exact ⟨_, event_load_ok hlen, rfl, rfl⟩

/-- Settles O40: a frozen Step (`stepEvent_paused`) and a Tick that is not enabled answer the same state, and the event `pause`
writes the level alone. -/
theorem pauseFreezes : Obligations.PauseFreezes := by
  intro s hm hp
  have he : s.enabled = false := not_enabled_of_paused hp
  refine ⟨fun keys rnd => stepEvent_paused keys rnd hm hp, ?_, event_tick_of_not_enabled he,
    { s with paused := false }, rfl, (enabled_iff _).2 ⟨hm, rfl⟩, ?_⟩
  · rw [step_not_enabled he, stepEvent_paused 0 0 hm hp]
  · rw [← hp]

end

section
/-!
PROOFS. Load: the memory it leaves, the refusal of a ROM that is too large, and the first Step after an empty one.
-/

namespace Sys2Proof.Machine

/-! ## The memory after Load -/

section
variable {rom : List Byte} {a : Nat}

theorem romMemory_read_rom {k : Nat} (hk : k < rom.length) : (romMemory Config.progBase rom).read (0x200 + k) = rom[k] := by
  have hin : Config.progBase ≤ 0x200 + k ∧ 0x200 + k - Config.progBase < rom.length := by
    simp only [Config.progBase]
    omega
  rw [romMemory_read, dif_pos hin]
  simp only [Config.progBase, Nat.add_sub_cancel_left]

theorem romMemory_read_outside (h : a < 0x200 ∨ 0x200 + rom.length ≤ a) :
    (romMemory Config.progBase rom).read a = unlisted a := by
  have hout : ¬ (Config.progBase ≤ a ∧ a - Config.progBase < rom.length) := by
    simp only [Config.progBase]
    omega
  rw [romMemory_read, dif_neg hout]

end

/-! ## The first Step after an empty ROM -/

/-- The state after Load of an empty ROM: the reset state with the inputs and the parameter of before (10_state.md R37). -/
def State.emptyLoaded (s : State) : State :=
  { State.reset with keys := s.keys, rnd := s.rnd, paused := s.paused, policy := s.policy, draws := s.draws }

theorem event_load_nil (s : State) : event (.load []) s = .next s.emptyLoaded := event_load_ok (Nat.zero_le _)

/-- Both bytes at 0x200 are zeros that nothing has written (70_reset_and_hazards.md R253). -/
theorem emptyLoaded_fetchWord (s : State) : s.emptyLoaded.fetchWord = 0x0000 := by
  have hread : s.emptyLoaded.fetchWord = unlisted 0x200 ++ unlisted 0x201 := rfl
  rw [hread, unlisted_eq, unlisted_eq]
  rfl

/-- 0x0000 is of class (a) of 30_encoding.md R97. -/
theorem wellFormedWord_zero : wellFormedWord 0x0000 = false := by decide

end Sys2Proof.Machine

open Sys2Proof.Machine

/-- Settles O42, by `load_error` and `event_load_error`. -/
theorem tooLargeRomIsRefused : Obligations.TooLargeRomIsRefused :=
  fun _ _ hlen => ⟨load_error hlen, event_load_error hlen⟩

/-- Settles O41: all but memory is as at reset; a byte of the ROM's block is the ROM's, any other is the reset contents
(`romMemory_read_outside`), which `unlisted_eq` says. -/
theorem loadInitialises : Obligations.LoadInitialises := by
  intro s rom hlen
  refine ⟨_, event_load_ok hlen, reset_getV, rfl, rfl, rfl, reset_stack, rfl, rfl, rfl, rfl, rfl, ⟨rfl, rfl, rfl, rfl, rfl⟩,
    rfl, rfl, fun k hk => romMemory_read_rom hk, fun a ha => ?_, fun a hfont hout => ?_⟩
  · exact (romMemory_read_outside (.inl (by omega))).trans ((unlisted_eq a).trans (if_pos ha))
  · exact (romMemory_read_outside hout).trans ((unlisted_eq a).trans (if_neg (Nat.not_lt.2 hfont)))

/-- Settles O43: the first Step after the Load fetches 0x0000 at 0x0200 (`emptyLoaded_fetchWord`), which is an unknown word, so
`unknownWordHalts` says what it does. -/
theorem emptyRomHaltsAtOnce : Obligations.EmptyRomHaltsAtOnce := by
  intro s keys rnd hp hpol
  obtain ⟨t, hstep, hmode, herr, hpc, -⟩ :=
    unknownWordHalts s.emptyLoaded keys rnd rfl hp (emptyLoaded_fetchWord s ▸ wellFormedWord_zero) hpol
  rw [emptyLoaded_fetchWord] at herr
  refine ⟨t, ?_, hmode, herr, hpc⟩
  rw [run_cons_of_next (event_load_nil s)]
  exact run_cons_of_next hstep

end

section
/-!
PROOFS. The jump to its own address, the program's own way to stop (70_reset_and_hazards.md R257).
-/

namespace Sys2Proof.Machine

theorem stepEvent_of_fetchWord_eq {s : State} {i : Instr} (keys : Word) (rnd : Byte) (hm : s.mode = .active)
    (hp : s.paused = false) (hw : s.fetchWord = encode i) : stepEvent keys rnd s = exec i (s.beginStep keys rnd) :=
  stepEvent_ok keys rnd hm hp (by rw [hw, decode_encode])

theorem addrWord_eq_of_toNat {nnn : Addr} {w : Word} (h : w.toNat = nnn.toNat) : addrWord nnn = w :=
  BitVec.eq_of_toNat_eq ((addrWord_toNat nnn).trans h.symm)

end Sys2Proof.Machine

open Sys2Proof.Machine

/-- Settles O57: the target is where PC was before the fetch advance, so only the start of the Step is left to see. -/
theorem jumpToSelfIsFixedPoint : Obligations.JumpToSelfIsFixedPoint := by
  intro s nnn keys rnd hm hp hw hpc
  rw [stepEvent_of_fetchWord_eq keys rnd hm hp hw, exec_jump, addrWord_eq_of_toNat hpc]
  rfl

end
